-- ==== Sys2Proof/Word.lean ====
section
/-!
DEFINITION. Word: the two word types of the block.

Bit 0 is the least significant bit (00_scope.md R12); a byte has 8 bits (20_memory.md R61).
-/

namespace Sys2Proof

/-- One byte of a packet buffer (20_memory.md R61). -/
abbrev Byte := BitVec 8

/-- One 32-bit field or register (10_state.md R21). -/
abbrev Word := BitVec 32

end Sys2Proof
end

