-- ==== Sys2Proof/Syntax.lean ====
section
/-!
DEFINITION. Syntax: the whole command set.
-/

namespace Sys2Proof

/-- The three commands of the block, one for each row of spec/opcode_table.json (30_encoding.md R110,
60_exceptions.md R231: "The three commands ... are the whole command set").  A command code has no
operand fields: every operand is in a register or a buffer. -/
inductive Instr where
  /-- `ENC`, the document's `encodeRequest` (40_packet_codec.md R135). -/
  | enc
  /-- `DEC`, the document's `decodeResponse` (40_packet_codec.md R144). -/
  | dec
  /-- `CONV`, the document's `toCalendarTime` (41_time_converter.md R165). -/
  | conv
  deriving DecidableEq, Repr

end Sys2Proof
end

