-- ==== Sys2Proof/Decode.lean ====
section
/-!
DEFINITION. Decode: Format C, the 8-bit command code (30_encoding.md R110, R111, R113), and its encoder.
-/

namespace Sys2Proof

/-- What the decoder says of a command code. -/
inductive Decoded where
  /-- The code of a command (30_encoding.md R110). -/
  | command (i : Instr)
  /-- One of the 253 reserved codes, which select no command (30_encoding.md R111). -/
  | reservedCode (c : Byte)
  deriving DecidableEq, Repr

/-- The decoder: the whole byte is compared, mask 0xFF (30_encoding.md R110). -/
def decode (c : Byte) : Decoded :=
  if c = 0x01#8 then .command .enc
  else if c = 0x02#8 then .command .dec
  else if c = 0x03#8 then .command .conv
  else .reservedCode c

/-- The code of a command, from the same table (30_encoding.md R110). -/
def encode : Instr → Byte
  | .enc => 0x01#8
  | .dec => 0x02#8
  | .conv => 0x03#8

/-- The command behind a decoding, if there is one. -/
def Decoded.instr : Decoded → Option Instr
  | .command i => some i
  | .reservedCode _ => none

/-- The host's numbering of an opcode-table word: the low `nbits` bits of `w`.  A code is 8 bits and there is
no longer form (30_encoding.md R113), so a word that needs more than one byte is no command.  Assumption log 13. -/
def decodeTableWord (nbits w : Nat) : Option Instr :=
  if w % 2 ^ nbits < 256 then (decode (BitVec.ofNat 8 (w % 2 ^ nbits))).instr else none

end Sys2Proof
end

