-- ==== Sys2Proof/Config.lean ====
section
/-!
DEFINITION. Config: what an implementation or the outside world fixes and the spec leaves open.

Every constant here is opaque: it has no body, so no proof can learn which value it has, and a
theorem that mentions one holds whatever the value is.
-/

namespace Sys2Proof.Config

/-- The value an `RXBUF` byte shows when the host has not written it since reset (10_state.md R37,
93_implementation_defined.md U2: "any value", one draw of 8 bits per byte, fixed for the duration of
one command).  Arguments: the number of the draw and the byte's address.  Assumption log 4. -/
opaque freeRxByte : Nat → Nat → Byte

/-- `POLL_SIGNED` (00_scope.md R11, 30_encoding.md R98): is the numeric view of poll two's complement?
No rule of the block reads it.  Assumption log 10. -/
opaque pollSigned : Bool

/-- `PRECISION_SIGNED` (00_scope.md R11, 30_encoding.md R98).  Assumption log 10. -/
opaque precisionSigned : Bool

/-- `ROOTDELAY_SIGNED` (00_scope.md R11, 30_encoding.md R99).  Assumption log 10. -/
opaque rootDelaySigned : Bool

/-- `ROOTDISP_SIGNED` (00_scope.md R11, 30_encoding.md R99).  Assumption log 10. -/
opaque rootDispSigned : Bool

/-- `REG_BASE` (00_scope.md R11, 20_memory.md R72): where a platform places the block on a bus.  No rule
reads an address, so nothing in the model mentions it again.  Assumption log 10. -/
opaque regBase : Nat

/-- The first reading in a call of the host's local monotonic clock (42_host_sequence.md R183).  Host side only: the
block has no clock (60_exceptions.md R232).  Assumption log 15. -/
opaque clockStart : Nat

/-- How far the host's local clock has moved between its `n`-th reading in a call and the next, 0 or more.  Assumption log 15. -/
opaque clockAdvance : Nat → Nat

/-- The ephemeral local port to which the `n`-th endpoint acquired in a call is bound (42_host_sequence.md R181).  Assumption
log 22. -/
opaque ephemeralPort : Nat → Nat

end Sys2Proof.Config
end

