-- ==== Sys2Proof/Machine/Transaction.lean ====
section
/-!
DEFINITION. Machine/Transaction: the register names, the address spaces and the host's transactions.

The host reaches the block through the abstract transactions of 00_scope.md R13, which form one total
order, the order in which the host issues them (20_memory.md R75).
-/

namespace Sys2Proof.Machine

/-- The 26 registers of 10_state.md R21, in the order of their index numbers. -/
inductive Reg where
  | cmd | status | cfgVn | cfgTxen | txSec | txFrac | rxlen | convSec | convFrac | epoch | subsec
  | recFlags | recStratum | recPoll | recPrecision | recRootDelay | recRootDisp | recRefId
  | recRefSec | recRefFrac | recOrgSec | recOrgFrac | recRcvSec | recRcvFrac | recXmtSec | recXmtFrac
  deriving DecidableEq, Repr

/-- The "host access" column of 10_state.md R21. -/
inductive Access where
  /-- "ro": host read-only. -/
  | ro
  /-- "wo": host write-only. -/
  | wo
  /-- "rw": host read and write. -/
  | rw
  deriving DecidableEq, Repr

/-- The two byte address spaces of 20_memory.md R60. -/
inductive Space where
  /-- The transmit buffer `TXBUF`, addresses `TX:0` to `TX:47`. -/
  | tx
  /-- The receive buffer `RXBUF`, addresses `RX:0` to `RX:47`. -/
  | rx
  deriving DecidableEq, Repr

/-- What travels on the host's data lines: so many bits, and their value read as an unsigned number.
A transaction whose width is not the register's is none of the interface (10_state.md R43). -/
structure Data where
  width : Nat
  value : Nat
  deriving DecidableEq, Repr

/-- The host transactions of 00_scope.md R13 (`Cmd(code)` is `regWrite .cmd`). -/
inductive Txn where
  /-- `RegWrite(NAME, v)`. -/
  | regWrite (r : Reg) (d : Data)
  /-- `RegRead(NAME)`. -/
  | regRead (r : Reg)
  /-- `BufWrite(S:i, b)`; the interface has it for `RX` only (10_state.md R43). -/
  | bufWrite (sp : Space) (a : Nat) (d : Data)
  /-- `BufRead(S:i)`. -/
  | bufRead (sp : Space) (a : Nat)
  deriving DecidableEq, Repr

/-- What can reach the block from outside, in the one total order of 20_memory.md R75. -/
inductive Event where
  /-- A transaction of the block's one host (20_memory.md R74). -/
  | host (t : Txn)
  /-- The platform's reset, ordered between host transactions (70_reset_and_hazards.md R250). -/
  | reset
  /-- A transaction of a second host, which a model refuses (20_memory.md R74, 93_implementation_defined.md U5). -/
  | secondHost (t : Txn)
  deriving DecidableEq, Repr

/-- What a host read gave back. -/
inductive ReadResult where
  | reg (r : Reg) (d : Data)
  | buf (sp : Space) (a : Nat) (b : Byte)
  deriving DecidableEq, Repr

end Sys2Proof.Machine
end

