-- ==== Sys2Proof/Machine/State.lean ====
section
/-!
DEFINITION. Machine/State: the whole state of the block (10_state.md R20), why a step can stop, and the state
after reset (10_state.md R42).
-/

namespace Sys2Proof.Machine

/-- A packet buffer: the (address, byte) pairs of the cells that hold a value, addresses strictly rising.  A cell
that is not listed holds no value: in `TXBUF` it is novalue (10_state.md R38), in `RXBUF` it is unspecified and a read
of it draws a free value (10_state.md R37).  Assumption log 3 and 4. -/
abbrev Memory := List Host.Cell

/-- One timestamp pair of the record (30_encoding.md R100). -/
structure Timestamp where
  /-- `secondsSince1900` -/
  seconds : Word
  /-- `fractionOfSecond`, a numerator over 2^32 -/
  fraction : Word
  deriving DecidableEq, Repr

/-- The document's `NtpPacket`, the value `decodeResponse` returns (40_packet_codec.md R142). -/
structure NtpPacket where
  flags : Byte
  stratum : Byte
  poll : Byte
  precision : Byte
  rootDelay : Word
  rootDispersion : Word
  referenceIdentifier : Word
  reference : Timestamp
  originate : Timestamp
  receive : Timestamp
  transmit : Timestamp
  deriving DecidableEq, Repr

/-- The document's `DecodeError` (60_exceptions.md R210). -/
inductive DecodeError where
  | shortBuffer
  | invalidMode
  | kissOfDeath
  deriving DecidableEq, Repr

/-- The document's `ConversionError` (60_exceptions.md R210). -/
inductive ConversionError where
  | beforeEpoch
  deriving DecidableEq, Repr

/-- The four error outcomes the block's commands raise (60_exceptions.md R211). -/
inductive BlockError where
  | decode (e : DecodeError)
  | conversion (e : ConversionError)
  deriving DecidableEq, Repr

/-- The fifteen record registers `REC_*` (10_state.md R21, indexes 11 to 25).  `none` is the spec's own
"novalue" (00_scope.md R15, 10_state.md R38). -/
structure RecordRegs where
  /-- `REC_FLAGS` (10_state.md R31) -/
  flags : Option Byte
  /-- `REC_STRATUM` (10_state.md R32) -/
  stratum : Option Byte
  /-- `REC_POLL` (10_state.md R33) -/
  poll : Option Byte
  /-- `REC_PRECISION` (10_state.md R33) -/
  precision : Option Byte
  /-- `REC_ROOTDELAY` (10_state.md R34) -/
  rootDelay : Option Word
  /-- `REC_ROOTDISP` (10_state.md R34) -/
  rootDisp : Option Word
  /-- `REC_REFID` (10_state.md R35) -/
  refId : Option Word
  /-- `REC_REF_SEC` (10_state.md R36) -/
  refSec : Option Word
  /-- `REC_REF_FRAC` -/
  refFrac : Option Word
  /-- `REC_ORG_SEC` -/
  orgSec : Option Word
  /-- `REC_ORG_FRAC` -/
  orgFrac : Option Word
  /-- `REC_RCV_SEC` -/
  rcvSec : Option Word
  /-- `REC_RCV_FRAC` -/
  rcvFrac : Option Word
  /-- `REC_XMT_SEC` -/
  xmtSec : Option Word
  /-- `REC_XMT_FRAC` -/
  xmtFrac : Option Word
  deriving DecidableEq, Repr

/-- All fifteen record registers novalue (10_state.md R42, 60_exceptions.md R216). -/
def RecordRegs.noValue : RecordRegs :=
  { flags := none, stratum := none, poll := none, precision := none, rootDelay := none, rootDisp := none
    refId := none, refSec := none, refFrac := none, orgSec := none, orgFrac := none, rcvSec := none
    rcvFrac := none, xmtSec := none, xmtFrac := none }

/-- The state of the block (10_state.md R20) and three fields of the model's own.  `CMD` has no field: it "stores
nothing" (10_state.md R22); a write to it waits in `inbox` like every other transaction. -/
structure State where
  /-- `STATUS`, fields as in 10_state.md R29; read and written through Machine/Flags. -/
  status : BitVec 8
  /-- `CFG_VN` (10_state.md R23) -/
  cfgVn : BitVec 3
  /-- `CFG_TXEN` (10_state.md R24) -/
  cfgTxen : BitVec 1
  /-- `TX_SEC` (10_state.md R25) -/
  txSec : Word
  /-- `TX_FRAC` (10_state.md R25) -/
  txFrac : Word
  /-- `TXBUF[0..47]` (10_state.md R37) -/
  txbuf : Memory
  /-- `RXBUF[0..47]` (10_state.md R37) -/
  rxbuf : Memory
  /-- `RXLEN` (10_state.md R26) -/
  rxlen : BitVec 16
  /-- The fifteen `REC_*` registers (10_state.md R31 to R36) -/
  record : RecordRegs
  /-- `CONV_SEC` (10_state.md R27) -/
  convSec : Word
  /-- `CONV_FRAC` (10_state.md R27) -/
  convFrac : Word
  /-- `EPOCH` (10_state.md R28); `none` is novalue -/
  epoch : Option Word
  /-- `SUBSEC` (10_state.md R28); `none` is novalue -/
  subsec : Option Word
  /-- MODEL'S OWN: what reaches the block next, first event first (20_memory.md R75).  Assumption log 1. -/
  inbox : List Event
  /-- MODEL'S OWN: what host reads gave back, latest first.  Assumption log 6. -/
  returned : List ReadResult
  /-- MODEL'S OWN: how many draws of unspecified `RXBUF` bytes have been made.  Assumption log 5. -/
  draws : Nat
  deriving DecidableEq, Repr

/-- Why the machine stops with a fault. -/
inductive Fault where
  /-- Raised by a `BufRead` or `BufWrite` at an address outside `S:0` to `S:47`, where no cell exists (20_memory.md
  R60, 30_encoding.md R118).  Safe: the model stops where the spec defines nothing.  Assumption log 7. -/
  | noSuchAddress (sp : Space) (a : Nat)
  deriving DecidableEq, Repr

/-- Why the machine refuses an event: the spec gives it no meaning.  Each is safe: the model stops where the spec
defines no next state. -/
inductive Refusal where
  /-- A command whose meaning has not been written.  Raised by no arm of `exec`: every command has its meaning.  Safe. -/
  | notModelled (mnemonic : String)
  /-- Raised by a write of a reserved code to `CMD` (30_encoding.md R111, 93_implementation_defined.md U4).  Safe. -/
  | reservedCommand (c : Byte)
  /-- Raised by a host read of a register in the spec's own state "novalue", which the spec has a model refuse:
"Never a value, never zero, never the previous value" (93_implementation_defined.md U1; 10_state.md R38, 42_host_sequence.md
R200, 60_exceptions.md R220, 92_eei_decisions.md D16 and D29).  Only `EPOCH`, `SUBSEC` and the `REC_*` registers have that state,
at reset and after a failed command (10_state.md R21, 60_exceptions.md R216).  Safe. -/
  | readNoValue (r : Reg)
  /-- Raised by a host read of a `TXBUF` byte that holds no value, in the same way: "`TXBUF` with `TVALID = 0`"
(93_implementation_defined.md U1, 10_state.md R38).  Safe. -/
  | readNoValueByte (a : Nat)
  /-- Raised by a host read of `CMD` (10_state.md R22, 93_implementation_defined.md U3).  Safe. -/
  | readWriteOnly (r : Reg)
  /-- Raised by a host write to an "ro" register (10_state.md R43, 93_implementation_defined.md U3).  Safe. -/
  | writeReadOnly (r : Reg)
  /-- Raised by a host write to `TXBUF` (10_state.md R43, 93_implementation_defined.md U3).  Safe. -/
  | writeTransmitBuffer (a : Nat)
  /-- Raised by a register write whose data has not the register's width (10_state.md R43, 93_implementation_defined.md U6).  Safe. -/
  | wrongWidth (r : Reg) (d : Data)
  /-- Raised by a `BufWrite` whose data is not one byte (20_memory.md R69, 93_implementation_defined.md U6).  Safe. -/
  | wrongByteWidth (a : Nat) (d : Data)
  /-- Raised by a transaction of a second host (20_memory.md R74, 93_implementation_defined.md U5).  Safe. -/
  | secondHost (t : Txn)
  deriving DecidableEq, Repr

/-- The state right after reset (10_state.md R42, 70_reset_and_hazards.md R251). -/
def State.reset : State :=
  { status := 0x00#8, cfgVn := 4#3, cfgTxen := 0#1, txSec := 0#32, txFrac := 0#32, txbuf := [], rxbuf := []
    rxlen := 0#16, record := RecordRegs.noValue, convSec := 0#32, convFrac := 0#32, epoch := none, subsec := none
    inbox := [], returned := [], draws := 0 }

end Sys2Proof.Machine
end

