-- ==== Sys2Proof/Machine/Flags.lean ====
section
/-!
DEFINITION. Machine/Flags: the fields of `STATUS` (10_state.md R29) and the outcome codes of `STATUS.ERR`
(30_encoding.md R112).

These are the only flags the block has; there are no arithmetic condition codes (10_state.md R30).
-/

namespace Sys2Proof.Machine

/-- `STATUS.ERR`, bits 2:0. -/
def errField (st : BitVec 8) : BitVec 3 := st.extractLsb' 0 3

/-- `STATUS.TVALID`, bit 3. -/
def tvalidField (st : BitVec 8) : Bool := st.getLsbD 3

/-- `STATUS.RVALID`, bit 4. -/
def rvalidField (st : BitVec 8) : Bool := st.getLsbD 4

/-- `STATUS.CVALID`, bit 5. -/
def cvalidField (st : BitVec 8) : Bool := st.getLsbD 5

/-- `STATUS` bits 7:6, which read as 0 (10_state.md R29). -/
def unusedField (st : BitVec 8) : BitVec 2 := st.extractLsb' 6 2

/-- `st` with `STATUS.ERR` written and every other bit kept. -/
def setErr (c : BitVec 3) (st : BitVec 8) : BitVec 8 := st.extractLsb' 3 5 ++ c

/-- `st` with one bit written and every other bit kept. -/
def setStatusBit (k : Nat) (b : Bool) (st : BitVec 8) : BitVec 8 :=
  if b then st ||| (1#8 <<< k) else st &&& ~~~(1#8 <<< k)

/-- `st` with `STATUS.TVALID` written. -/
def setTvalid (b : Bool) (st : BitVec 8) : BitVec 8 := setStatusBit 3 b st

/-- `st` with `STATUS.RVALID` written. -/
def setRvalid (b : Bool) (st : BitVec 8) : BitVec 8 := setStatusBit 4 b st

/-- `st` with `STATUS.CVALID` written. -/
def setCvalid (b : Bool) (st : BitVec 8) : BitVec 8 := setStatusBit 5 b st

/-- The outcome code of success (30_encoding.md R112). -/
def successCode : BitVec 3 := 0#3

/-- `code(E)`, the outcome code of an error (30_encoding.md R112). -/
def errorCode : BlockError → BitVec 3
  | .decode .shortBuffer => 1#3
  | .decode .invalidMode => 2#3
  | .decode .kissOfDeath => 3#3
  | .conversion .beforeEpoch => 4#3

/-- `STATUS.ERR` of a state. -/
def State.err (s : State) : BitVec 3 := errField s.status

/-- `STATUS.TVALID` of a state. -/
def State.tvalid (s : State) : Bool := tvalidField s.status

/-- `STATUS.RVALID` of a state. -/
def State.rvalid (s : State) : Bool := rvalidField s.status

/-- `STATUS.CVALID` of a state. -/
def State.cvalid (s : State) : Bool := cvalidField s.status

end Sys2Proof.Machine
end

