-- ==== Sys2Proof/Machine/Ops.lean ====
section
/-!
DEFINITION. Machine/Ops: the named operations over memory and registers: buffer reads and writes, byte order,
the named state updates, and raising an error.
-/

namespace Sys2Proof.Machine

/-- `PKT_LEN`, the size of a packet and of each buffer (00_scope.md R9). -/
def pktLen : Nat := 48

/-! ### Buffers (20_memory.md R60) -/

/-- The byte a cell holds, if it holds one. -/
def Memory.read : Memory → Nat → Option Byte
  | [], _ => none
  | (x, b) :: rest, a => if x = a then some b else Memory.read rest a

/-- One byte stored: the cell is replaced, or put where its address belongs. -/
def Memory.write : Memory → Nat → Byte → Memory
  | [], a, b => [(a, b)]
  | (x, c) :: rest, a, b =>
    if a < x then (a, b) :: (x, c) :: rest
    else if a = x then (a, b) :: rest
    else (x, c) :: Memory.write rest a b

/-- Consecutive bytes stored, the first at address `a`. -/
def Memory.store : Memory → Nat → List Byte → Memory
  | m, _, [] => m
  | m, a, b :: bs => Memory.store (Memory.write m a b) (a + 1) bs

/-- Addresses strictly rising from `lo` on and below 48. -/
def Memory.wfFrom : Nat → Memory → Bool
  | _, [] => true
  | lo, (x, _) :: rest => decide (lo ≤ x) && decide (x < pktLen) && Memory.wfFrom (x + 1) rest

/-- The canonical form: addresses strictly rising, every one an address of the buffer (20_memory.md R60).  A cell that
is not listed holds no byte, so no entry can equal what an unlisted address reads as. -/
def Memory.wf (m : Memory) : Bool := Memory.wfFrom 0 m

/-! ### Byte order (20_memory.md R62): the lowest address holds the most significant byte -/

/-- `BE32` of four bytes, the first from the lowest address (40_packet_codec.md R142). -/
def be32 (c0 c1 c2 c3 : Byte) : Word := c0 ++ c1 ++ c2 ++ c3

/-- The four bytes `MemWrite(S:a, 4, v)` stores, lowest address first (00_scope.md R14). -/
def wordBytes (v : Word) : List Byte :=
  [v.extractLsb' 24 8, v.extractLsb' 16 8, v.extractLsb' 8 8, v.extractLsb' 0 8]

/-- `MemRead(S:a, 4)` over the bytes `buf` shows (00_scope.md R14). -/
def memRead4 (buf : Nat → Byte) (a : Nat) : Word := be32 (buf a) (buf (a + 1)) (buf (a + 2)) (buf (a + 3))

/-- The byte `RX:a` shows a reader: the byte the host wrote, else a free value of the current draw (10_state.md R37).  The
spec fixes no such value, and so does not say whether two independent blocks (60_exceptions.md R234), or two runs from reset, agree
in it; that draws of the same number do is a DESIGN CHOICE, assumption log 4.  A claim that compares two of them must not
rest on it. -/
def State.rxByte (s : State) (a : Nat) : Byte :=
  match s.rxbuf.read a with
  | some b => b
  | none => Config.freeRxByte s.draws a

/-! ### Named updates of the state -/

/-- Writes `STATUS`. -/
def State.withStatus (s : State) (v : BitVec 8) : State := { s with status := v }

/-- Writes the transmit buffer. -/
def State.withTxbuf (s : State) (m : Memory) : State := { s with txbuf := m }

/-- Writes the receive buffer. -/
def State.withRxbuf (s : State) (m : Memory) : State := { s with rxbuf := m }

/-- Writes all fifteen record registers. -/
def State.withRecord (s : State) (r : RecordRegs) : State := { s with record := r }

/-- Writes `EPOCH` and `SUBSEC`. -/
def State.withCalendar (s : State) (e q : Option Word) : State := { s with epoch := e, subsec := q }

/-- Ends the current draw of unspecified bytes, so that the next reader draws afresh. -/
def State.nextDraw (s : State) : State := { s with draws := s.draws + 1 }

/-- Hands the host the value of a read. -/
def State.giveBack (s : State) (r : ReadResult) : State := { s with returned := r :: s.returned }

/-- Replaces what waits to reach the block. -/
def State.withInbox (s : State) (es : List Event) : State := { s with inbox := es }

/-! ### The record -/

/-- The fifteen registers holding the record `p` (30_encoding.md R90's register column). -/
def RecordRegs.ofPacket (p : NtpPacket) : RecordRegs :=
  { flags := some p.flags, stratum := some p.stratum, poll := some p.poll, precision := some p.precision
    rootDelay := some p.rootDelay, rootDisp := some p.rootDispersion, refId := some p.referenceIdentifier
    refSec := some p.reference.seconds, refFrac := some p.reference.fraction
    orgSec := some p.originate.seconds, orgFrac := some p.originate.fraction
    rcvSec := some p.receive.seconds, rcvFrac := some p.receive.fraction
    xmtSec := some p.transmit.seconds, xmtFrac := some p.transmit.fraction }

/-! ### Error outcomes -/

/-- `raise E` (00_scope.md R15, 60_exceptions.md R216): the code goes to `STATUS.ERR`, the command's valid flag is
cleared and its result registers lose their values; nothing else changes, and no control goes anywhere.  There is no
return to model beside it: "There is no return instruction and nothing to return from" (60_exceptions.md R218), the
state `raise` gives is one in which the block "accepts the next command at once". -/
def raise (e : BlockError) (s : State) : State :=
  match e with
  | .decode d => (s.withStatus (setErr (errorCode (.decode d)) (setRvalid false s.status))).withRecord RecordRegs.noValue
  | .conversion c => (s.withStatus (setErr (errorCode (.conversion c)) (setCvalid false s.status))).withCalendar none none

/-- Reset as an event (70_reset_and_hazards.md R250): every piece of the block's state takes its reset value, whatever it
held before.  The model's own fields are kept: the events still to come, what was read, and the draw counter.  Assumption log 9. -/
def applyReset (s : State) : State :=
  { State.reset with inbox := s.inbox, returned := s.returned, draws := s.draws }

/-- The next state of an outcome, if it has one. -/
def nextState (o : Host.Outcome State Fault Refusal) : Option State :=
  match o with
  | .next s => some s
  | .fault _ => none
  | .refused _ => none

end Sys2Proof.Machine
end

