-- ==== Sys2Proof/Machine/Operands.lean ====
section
/-!
DEFINITION. Machine/Operands: the register table (10_state.md R21) and the one operation that reads and the one that
writes a register for the host.

The commands have no operand fields (30_encoding.md R110): each reads the registers and buffers its rule names.
-/

namespace Sys2Proof.Machine

/-- The index number of a register (10_state.md R21). -/
def Reg.index : Reg → Nat
  | .cmd => 0 | .status => 1 | .cfgVn => 2 | .cfgTxen => 3 | .txSec => 4 | .txFrac => 5 | .rxlen => 6
  | .convSec => 7 | .convFrac => 8 | .epoch => 9 | .subsec => 10 | .recFlags => 11 | .recStratum => 12
  | .recPoll => 13 | .recPrecision => 14 | .recRootDelay => 15 | .recRootDisp => 16 | .recRefId => 17
  | .recRefSec => 18 | .recRefFrac => 19 | .recOrgSec => 20 | .recOrgFrac => 21 | .recRcvSec => 22
  | .recRcvFrac => 23 | .recXmtSec => 24 | .recXmtFrac => 25

/-- Every register, in the order of the index numbers. -/
def Reg.all : List Reg :=
  [.cmd, .status, .cfgVn, .cfgTxen, .txSec, .txFrac, .rxlen, .convSec, .convFrac, .epoch, .subsec, .recFlags,
    .recStratum] ++
  [.recPoll, .recPrecision, .recRootDelay, .recRootDisp, .recRefId, .recRefSec, .recRefFrac, .recOrgSec, .recOrgFrac,
    .recRcvSec, .recRcvFrac, .recXmtSec, .recXmtFrac]

/-- The generic form `x[i]` (00_scope.md R13): the register whose index is `i`. -/
def Reg.ofIndex (i : Nat) : Option Reg := Reg.all[i]?

/-- The width of a register in bits (10_state.md R21). -/
def Reg.width : Reg → Nat
  | .cmd | .status => 8
  | .cfgVn => 3
  | .cfgTxen => 1
  | .rxlen => 16
  | .recFlags | .recStratum | .recPoll | .recPrecision => 8
  | .txSec | .txFrac | .convSec | .convFrac | .epoch | .subsec => 32
  | .recRootDelay | .recRootDisp | .recRefId | .recRefSec | .recRefFrac | .recOrgSec | .recOrgFrac | .recRcvSec
  | .recRcvFrac | .recXmtSec | .recXmtFrac => 32

/-- The "host access" column of 10_state.md R21.  There is one level of privilege (10_state.md R43, 60_exceptions.md R230). -/
def Reg.access : Reg → Access
  | .cmd => .wo
  | .cfgVn | .cfgTxen | .txSec | .txFrac | .rxlen | .convSec | .convFrac => .rw
  | .status | .epoch | .subsec => .ro
  | .recFlags | .recStratum | .recPoll | .recPrecision | .recRootDelay | .recRootDisp | .recRefId | .recRefSec
  | .recRefFrac | .recOrgSec | .recOrgFrac | .recRcvSec | .recRcvFrac | .recXmtSec | .recXmtFrac => .ro

/-- Data of exactly `w` bits (10_state.md R43). -/
def Data.fits (d : Data) (w : Nat) : Bool := d.width == w && decide (d.value < 2 ^ w)

/-- A register's contents on the data lines. -/
def Data.ofBits {w : Nat} (v : BitVec w) : Data := { width := w, value := v.toNat }

/-- What a register holds; `none` when it holds no value (10_state.md R38).  `CMD` holds nothing (10_state.md R22). -/
def State.regValue (s : State) : Reg → Option Data
  | .cmd => none
  | .status => some (Data.ofBits s.status)
  | .cfgVn => some (Data.ofBits s.cfgVn)
  | .cfgTxen => some (Data.ofBits s.cfgTxen)
  | .txSec => some (Data.ofBits s.txSec)
  | .txFrac => some (Data.ofBits s.txFrac)
  | .rxlen => some (Data.ofBits s.rxlen)
  | .convSec => some (Data.ofBits s.convSec)
  | .convFrac => some (Data.ofBits s.convFrac)
  | .epoch => s.epoch.map Data.ofBits
  | .subsec => s.subsec.map Data.ofBits
  | .recFlags => s.record.flags.map Data.ofBits
  | .recStratum => s.record.stratum.map Data.ofBits
  | .recPoll => s.record.poll.map Data.ofBits
  | .recPrecision => s.record.precision.map Data.ofBits
  | .recRootDelay => s.record.rootDelay.map Data.ofBits
  | .recRootDisp => s.record.rootDisp.map Data.ofBits
  | .recRefId => s.record.refId.map Data.ofBits
  | .recRefSec => s.record.refSec.map Data.ofBits
  | .recRefFrac => s.record.refFrac.map Data.ofBits
  | .recOrgSec => s.record.orgSec.map Data.ofBits
  | .recOrgFrac => s.record.orgFrac.map Data.ofBits
  | .recRcvSec => s.record.rcvSec.map Data.ofBits
  | .recRcvFrac => s.record.rcvFrac.map Data.ofBits
  | .recXmtSec => s.record.xmtSec.map Data.ofBits
  | .recXmtFrac => s.record.xmtFrac.map Data.ofBits

/-- `RegRead(NAME)`: the value, or why the read is refused: a read of novalue by 10_state.md R38 and
93_implementation_defined.md U1, a read of `CMD` by 10_state.md R43 and U3. -/
def State.readReg (s : State) (r : Reg) : Except Refusal Data :=
  match r.access with
  | .wo => .error (.readWriteOnly r)
  | .ro | .rw =>
    match s.regValue r with
    | some d => .ok d
    | none => .error (.readNoValue r)

/-- `NAME <- v` for a register the host may write and that stores what it is given (10_state.md R21, access "rw").
The other registers have no stored operand for a host write to reach, so their arms change nothing and `hostRegWrite`
never comes here with one. -/
def State.storeReg (s : State) (r : Reg) (v : Nat) : State :=
  match r with
  | .cfgVn => { s with cfgVn := BitVec.ofNat 3 v }
  | .cfgTxen => { s with cfgTxen := BitVec.ofNat 1 v }
  | .txSec => { s with txSec := BitVec.ofNat 32 v }
  | .txFrac => { s with txFrac := BitVec.ofNat 32 v }
  | .rxlen => { s with rxlen := BitVec.ofNat 16 v }
  | .convSec => { s with convSec := BitVec.ofNat 32 v }
  | .convFrac => { s with convFrac := BitVec.ofNat 32 v }
  | .cmd | .status | .epoch | .subsec => s
  | .recFlags | .recStratum | .recPoll | .recPrecision | .recRootDelay | .recRootDisp | .recRefId | .recRefSec
  | .recRefFrac | .recOrgSec | .recOrgFrac | .recRcvSec | .recRcvFrac | .recXmtSec | .recXmtFrac => s

/-- `BufRead(S:i)` of an address of the buffer.  A `TXBUF` byte that holds no value is refused (10_state.md R38); an
`RXBUF` byte the host has not written shows a free value, and the draw ends with the read (10_state.md R37). -/
def bufRead (sp : Space) (a : Nat) (s : State) : Host.Outcome State Fault Refusal :=
  match sp with
  | .tx =>
    match s.txbuf.read a with
    | some b => .next (s.giveBack (.buf .tx a b))
    | none => .refused (.readNoValueByte a)
  | .rx =>
    match s.rxbuf.read a with
    | some b => .next (s.giveBack (.buf .rx a b))
    | none => .next ((s.giveBack (.buf .rx a (s.rxByte a))).nextDraw)

/-- `BufWrite(S:i, b)` at an address of the buffer: `RXBUF` takes the byte; `TXBUF` is host read-only (10_state.md R43). -/
def bufWrite (sp : Space) (a : Nat) (d : Data) (s : State) : Host.Outcome State Fault Refusal :=
  match sp with
  | .tx => .refused (.writeTransmitBuffer a)
  | .rx =>
    if d.fits 8 then .next (s.withRxbuf (s.rxbuf.write a (BitVec.ofNat 8 d.value)))
    else .refused (.wrongByteWidth a d)

end Sys2Proof.Machine
end

