-- ==== Sys2Proof/Machine/PacketCodec.lean ====
section
/-!
DEFINITION. Machine/PacketCodec: the pure functions and the two commands of the packet codec, ENC and DEC
(40_packet_codec.md).
-/

namespace Sys2Proof.Machine

/-! ### The flags byte (30_encoding.md R91) -/

/-- `LI`, bits 7:6 of the flags byte.  The three positions come from general knowledge: PRESUMED, assumption log 11. -/
def flagsLI (f : Byte) : BitVec 2 := f.extractLsb' 6 2

/-- `VN`, bits 5:3 of the flags byte.  PRESUMED, assumption log 11. -/
def flagsVN (f : Byte) : BitVec 3 := f.extractLsb' 3 3

/-- `MODE`, bits 2:0 of the flags byte.  PRESUMED, assumption log 11. -/
def flagsMode (f : Byte) : BitVec 3 := f.extractLsb' 0 3

/-- `flags = LI × 64 + VN × 8 + MODE`. -/
def makeFlags (li : BitVec 2) (vn mode : BitVec 3) : Byte := li ++ vn ++ mode

/-- "mode=client(3)" (00_scope.md R9). -/
def clientMode : BitVec 3 := 3#3

/-- "server(4)" (00_scope.md R9). -/
def serverMode : BitVec 3 := 4#3

/-! ### ENC -/

/-- The request's transmit timestamp: the operands when `txen` is 1, else zero (40_packet_codec.md R133). -/
def requestTransmit (txen : BitVec 1) (txsec txfrac : Word) : Timestamp :=
  if txen = 1#1 then { seconds := txsec, fraction := txfrac } else { seconds := 0#32, fraction := 0#32 }

/-- `encodeRequest`: the 48 bytes of the request image (40_packet_codec.md R132). -/
def encodeRequest (vn : BitVec 3) (txen : BitVec 1) (txsec txfrac : Word) : List Byte :=
  [makeFlags 0#2 vn clientMode] ++ List.replicate 39 0#8
    ++ wordBytes (requestTransmit txen txsec txfrac).seconds ++ wordBytes (requestTransmit txen txsec txfrac).fraction

/-- The `MemWrite` lines of 40_packet_codec.md R135, one after another. -/
def encodeInto (m : Memory) (vn : BitVec 3) (txen : BitVec 1) (txsec txfrac : Word) : Memory :=
  let m := m.write 0 (makeFlags 0#2 vn clientMode)
  let m := m.store 1 (List.replicate 39 0#8)
  let m := m.store 40 (wordBytes (if txen = 1#1 then txsec else 0#32))
  m.store 44 (wordBytes (if txen = 1#1 then txfrac else 0#32))

/-- Command ENC (40_packet_codec.md R135): `TXBUF` gets the request, `TVALID` is set and `ERR` is 0.  It cannot fail. -/
def execEnc (s : State) : Host.Outcome State Fault Refusal :=
  .next ((s.withTxbuf (encodeInto s.txbuf s.cfgVn s.cfgTxen s.txSec s.txFrac)).withStatus
    (setErr successCode (setTvalid true s.status)))

/-! ### DEC -/

/-- The record read from the bytes `buf` shows, by the layout of 30_encoding.md R90 (40_packet_codec.md R142). -/
def recordOf (buf : Nat → Byte) : NtpPacket :=
  { flags := buf 0, stratum := buf 1, poll := buf 2, precision := buf 3
    rootDelay := memRead4 buf 4, rootDispersion := memRead4 buf 8, referenceIdentifier := memRead4 buf 12
    reference := { seconds := memRead4 buf 16, fraction := memRead4 buf 20 }
    originate := { seconds := memRead4 buf 24, fraction := memRead4 buf 28 }
    receive := { seconds := memRead4 buf 32, fraction := memRead4 buf 36 }
    transmit := { seconds := memRead4 buf 40, fraction := memRead4 buf 44 } }

/-- `decodeResponse`: the checks of length, mode and stratum in that order, then the record (40_packet_codec.md R137
to R142). -/
def decodeResponse (len : BitVec 16) (buf : Nat → Byte) : Except DecodeError NtpPacket :=
  if len.toNat < pktLen then .error .shortBuffer
  else if flagsMode (buf 0) ≠ serverMode then .error .invalidMode
  else if buf 1 = 0#8 then .error .kissOfDeath
  else .ok (recordOf buf)

/-- The state once DEC has read its operands: a DEC that reads `RXBUF` ends the draw of unspecified bytes; a short
buffer is not read (40_packet_codec.md R138). -/
def State.afterDecRead (s : State) : State := if s.rxlen.toNat < pktLen then s else s.nextDraw

/-- Command DEC (40_packet_codec.md R144). -/
def execDec (s : State) : Host.Outcome State Fault Refusal :=
  match decodeResponse s.rxlen s.rxByte with
  | .error e => .next (raise (.decode e) s.afterDecRead)
  | .ok p =>
    .next ((s.afterDecRead.withRecord (RecordRegs.ofPacket p)).withStatus
      (setErr successCode (setRvalid true s.status)))

/-! ### Reference function (not a command) -/

/-- `marshal`: a record as the 48 bytes of the wire format, the inverse of `recordOf` (40_packet_codec.md R147, and
R148 (a) and (b)). -/
def marshal (r : NtpPacket) : List Byte :=
  [r.flags, r.stratum, r.poll, r.precision] ++ wordBytes r.rootDelay ++ wordBytes r.rootDispersion
    ++ wordBytes r.referenceIdentifier
    ++ wordBytes r.reference.seconds ++ wordBytes r.reference.fraction
    ++ wordBytes r.originate.seconds ++ wordBytes r.originate.fraction
    ++ wordBytes r.receive.seconds ++ wordBytes r.receive.fraction
    ++ wordBytes r.transmit.seconds ++ wordBytes r.transmit.fraction

/-- The request as a record (40_packet_codec.md R147). -/
def requestRecord (vn : BitVec 3) (txen : BitVec 1) (txsec txfrac : Word) : NtpPacket :=
  { flags := makeFlags 0#2 vn clientMode, stratum := 0#8, poll := 0#8, precision := 0#8
    rootDelay := 0#32, rootDispersion := 0#32, referenceIdentifier := 0#32
    reference := { seconds := 0#32, fraction := 0#32 }
    originate := { seconds := 0#32, fraction := 0#32 }
    receive := { seconds := 0#32, fraction := 0#32 }
    transmit := requestTransmit txen txsec txfrac }

/-- The bytes of an image as a reader sees them; an image has 48 bytes and no rule reads beyond them (20_memory.md R68). -/
def imageByte (img : List Byte) (a : Nat) : Byte := img.getD a 0#8

end Sys2Proof.Machine
end

