-- ==== Sys2Proof/Machine/TimeConverter.lean ====
section
/-!
DEFINITION. Machine/TimeConverter: the pure function and the command of the time converter, CONV (41_time_converter.md).
-/

namespace Sys2Proof.Machine

/-- `EPOCH_OFFSET`, 2,208,988,800 seconds = 0x83AA7E80 (00_scope.md R9). -/
def epochOffset : Word := 2208988800#32

/-- The largest `epochSeconds` (41_time_converter.md R163). -/
def maxEpoch : Word := 2085978495#32

/-- `toCalendarTime` (41_time_converter.md R161): an unsigned comparison, then a subtraction that cannot borrow; the
fraction is passed on unchanged (R164).  The seconds are read in era 0 only (R166). -/
def toCalendarTime (s f : Word) : Except ConversionError (Word × Word) :=
  if s.toNat < epochOffset.toNat then .error .beforeEpoch else .ok (s - epochOffset, f)

/-- Command CONV (41_time_converter.md R165). -/
def execConv (s : State) : Host.Outcome State Fault Refusal :=
  match toCalendarTime s.convSec s.convFrac with
  | .error e => .next (raise (.conversion e) s)
  | .ok (e, q) =>
    .next ((s.withCalendar (some e) (some q)).withStatus (setErr successCode (setCvalid true s.status)))

/-- `fromCalendarTime`, the reference inverse, defined for `e` up to 2,085,978,495 only (41_time_converter.md R170).
Not a command. -/
def fromCalendarTime (e q : Word) : Option (Word × Word) :=
  if e.toNat ≤ maxEpoch.toNat then some (e + epochOffset, q) else none

end Sys2Proof.Machine
end

