-- ==== Sys2Proof/Machine/HostPort.lean ====
section
/-!
DEFINITION. Machine/HostPort: what each host transaction and each event does (00_scope.md R13, 10_state.md R43,
20_memory.md R70 to R75).
-/

namespace Sys2Proof.Machine

/-- A code written to `CMD` starts the command it selects, which completes as part of the same write (10_state.md R22,
70_reset_and_hazards.md R258); a reserved code selects none (30_encoding.md R111). -/
def runCommand (c : Byte) (s : State) : Host.Outcome State Fault Refusal :=
  match decode c with
  | .command i => exec i s
  | .reservedCode c => .refused (.reservedCommand c)

/-- `RegWrite(NAME, v)` (10_state.md R43).  Which refusal names a write that has two reasons: assumption log 8. -/
def hostRegWrite (r : Reg) (d : Data) (s : State) : Host.Outcome State Fault Refusal :=
  match r.access with
  | .ro => .refused (.writeReadOnly r)
  | .wo => if d.fits r.width then runCommand (BitVec.ofNat 8 d.value) s else .refused (.wrongWidth r d)
  | .rw => if d.fits r.width then .next (s.storeReg r d.value) else .refused (.wrongWidth r d)

/-- `RegRead(NAME)`: the host gets the value and no register changes (20_memory.md R71). -/
def hostRegRead (r : Reg) (s : State) : Host.Outcome State Fault Refusal :=
  match s.readReg r with
  | .ok d => .next (s.giveBack (.reg r d))
  | .error e => .refused e

/-- `BufWrite(S:i, b)`. -/
def hostBufWrite (sp : Space) (a : Nat) (d : Data) (s : State) : Host.Outcome State Fault Refusal :=
  if a < pktLen then bufWrite sp a d s else .fault (.noSuchAddress sp a)

/-- `BufRead(S:i)`. -/
def hostBufRead (sp : Space) (a : Nat) (s : State) : Host.Outcome State Fault Refusal :=
  if a < pktLen then bufRead sp a s else .fault (.noSuchAddress sp a)

/-- One host transaction, atomic (20_memory.md R70). -/
def perform (t : Txn) (s : State) : Host.Outcome State Fault Refusal :=
  match t with
  | .regWrite r d => hostRegWrite r d s
  | .regRead r => hostRegRead r s
  | .bufWrite sp a d => hostBufWrite sp a d s
  | .bufRead sp a => hostBufRead sp a s

/-- One event (20_memory.md R74, R75; 70_reset_and_hazards.md R250). -/
def handle (e : Event) (s : State) : Host.Outcome State Fault Refusal :=
  match e with
  | .host t => perform t s
  | .reset => .next (applyReset s)
  | .secondHost t => .refused (.secondHost t)

/-- The next event, if there is one.  With none the block is idle and nothing changes (10_state.md R40,
70_reset_and_hazards.md R268).  Assumption log 1. -/
def takeEvent (s : State) : Host.Outcome State Fault Refusal :=
  match s.inbox with
  | [] => .next s
  | e :: rest => handle e (s.withInbox rest)

/-- The host's `Cmd(code)` (00_scope.md R13) with a code of any width on its data lines. -/
def cmdTxn (d : Data) : Txn := .regWrite .cmd d

/-- The `CMD` write that carries a word of the opcode table: 8 bits (30_encoding.md R113), the low `nbits` bits of `w`.
Assumption log 13. -/
def tableTxn (nbits w : Nat) : Txn := cmdTxn { width := 8, value := w % 2 ^ nbits }

end Sys2Proof.Machine
end

