-- ==== Sys2Proof/Machine/Step.lean ====
section
/-!
DEFINITION. Machine/Step: one step of the block.
-/

namespace Sys2Proof.Machine

/-- One step: the block takes the next event (20_memory.md R75). -/
def step (s : State) : Host.Outcome State Fault Refusal := takeEvent s

/-- `s` with the write of a command code to `CMD` as the very next event: the block fetches nothing (20_memory.md R78),
a code reaches it as the data of that write.  Assumption log 2. -/
def State.withFetchWord (s : State) (nbits w : Nat) : State := s.withInbox (.host (tableTxn nbits w) :: s.inbox)

end Sys2Proof.Machine
end

