-- ==== Sys2Proof/Machine/NumberFormats.lean ====
section
/-!
DEFINITION. Machine/NumberFormats: the numeric views of the record's bit patterns (30_encoding.md R98 to R102).

No command uses these numbers: the block moves the bits unchanged in either view.
-/

namespace Sys2Proof.Machine

/-- A bit pattern read as an unsigned or as a two's complement number, by an open parameter (30_encoding.md R98). -/
def numericView (signed : Bool) {w : Nat} (p : BitVec w) : Int := if signed then p.toInt else (p.toNat : Int)

/-- The exponent of 2, in seconds, that a poll byte stands for (30_encoding.md R98). -/
def pollExponent (p : Byte) : Int := numericView Config.pollSigned p

/-- The exponent of 2, in seconds, that a precision byte stands for (30_encoding.md R98). -/
def precisionExponent (p : Byte) : Int := numericView Config.precisionSigned p

/-- Root delay as a numerator over 2^16 seconds (30_encoding.md R99). -/
def rootDelayNumerator (r : Word) : Int := numericView Config.rootDelaySigned r

/-- Root dispersion as a numerator over 2^16 seconds (30_encoding.md R99). -/
def rootDispNumerator (r : Word) : Int := numericView Config.rootDispSigned r

/-- The integer part of a 16.16 pattern in the unsigned view (30_encoding.md R99). -/
def fixedInteger (r : Word) : BitVec 16 := r.extractLsb' 16 16

/-- The fraction part of a 16.16 pattern, a numerator over 2^16 (30_encoding.md R99). -/
def fixedFraction (r : Word) : BitVec 16 := r.extractLsb' 0 16

/-- The 64-bit fixed-point value `SEC ++ FRAC` of a pair, a numerator over 2^32 seconds (10_state.md R36,
30_encoding.md R100, R102). -/
def pairValue (sec frac : Word) : BitVec 64 := sec ++ frac

end Sys2Proof.Machine
end

