-- ==== Sys2Proof/Machine/Script.lean ====
section
/-!
DEFINITION. Machine/Script: the host script lines and pseudo-lines of 30_encoding.md R118 and R119, and the fixed
transaction sequences they stand for.

This is the host's side: the block only ever sees the transactions.
-/

namespace Sys2Proof.Machine

/-- Transactions issued one after another; the first fault or refusal ends the sequence. -/
def issueAll : List Txn → State → Host.Outcome State Fault Refusal
  | [], s => .next s
  | t :: ts, s =>
    match perform t s with
    | .next s' => issueAll ts s'
    | .fault r => .fault r
    | .refused r => .refused r

/-- `WR NAME, v` with data of the register's width. -/
def wrTxn (r : Reg) (v : Nat) : Txn := .regWrite r { width := r.width, value := v }

/-- `WRB RX[i], b`. -/
def wrbTxn (a : Nat) (b : Byte) : Txn := .bufWrite .rx a { width := 8, value := b.toNat }

/-- `CMD ENC`, `CMD DEC`, `CMD CONV`. -/
def commandTxn (i : Instr) : Txn := cmdTxn { width := 8, value := (encode i).toNat }

/-- `WRB RX[a], b0`, `WRB RX[a+1], b1`, and so on. -/
def wrbTxns : Nat → List Byte → List Txn
  | _, [] => []
  | a, b :: bs => wrbTxn a b :: wrbTxns (a + 1) bs

/-- `LDRX n, b0 b1 ...` (30_encoding.md R119): the length, then the bytes given, at most 48.  The rule has the line carry
exactly min(n, 48) bytes; a line that carries another number of them has no meaning there, and that it still writes `n` and
the first 48 bytes given is a DESIGN CHOICE, assumption log 21. -/
def ldrxTxns (n : Nat) (payload : List Byte) : List Txn := wrTxn .rxlen n :: wrbTxns 0 (payload.take pktLen)

/-- `RDTX` (30_encoding.md R119): the 48 bytes of `TXBUF` in order. -/
def rdtxTxns : List Txn := (List.range pktLen).map fun a => Txn.bufRead .tx a

/-- A register read whose value the host goes on with. -/
def hostRead {σ : Type} (r : Reg) (s : State) (k : Nat → State → Host.Outcome σ Fault Refusal) :
    Host.Outcome σ Fault Refusal :=
  match s.readReg r with
  | .ok d => k d.value (s.giveBack (.reg r d))
  | .error e => .refused e

/-- `MOVXMT` (30_encoding.md R119): the record's transmit timestamp read and written to CONV's operands. -/
def moveTransmit (s : State) : Host.Outcome State Fault Refusal :=
  hostRead .recXmtSec s fun sec s =>
    hostRead .recXmtFrac s fun frac s => issueAll [wrTxn .convSec sec, wrTxn .convFrac frac] s

/-- A line of a host script (30_encoding.md R118, R119). -/
inductive ScriptLine where
  | wr (r : Reg) (v : Nat)
  | rd (r : Reg)
  | wrb (a : Nat) (b : Byte)
  | rdb (sp : Space) (a : Nat)
  | cmd (i : Instr)
  | ldrx (n : Nat) (payload : List Byte)
  | movxmt
  | rdtx
  deriving DecidableEq, Repr

/-- What a line does (30_encoding.md R118, R119).  R118 defines `WR` for an "rw" register only; that a `WR` line with another
register is still the transaction it names is a DESIGN CHOICE, assumption log 23: `WR CMD, v` writes `v` to `CMD` and so runs the
command whose code is `v`, and `WR` of an "ro" register is refused. -/
def runLine (l : ScriptLine) (s : State) : Host.Outcome State Fault Refusal :=
  match l with
  | .wr r v => perform (wrTxn r v) s
  | .rd r => perform (.regRead r) s
  | .wrb a b => perform (wrbTxn a b) s
  | .rdb sp a => perform (.bufRead sp a) s
  | .cmd i => perform (commandTxn i) s
  | .ldrx n payload => issueAll (ldrxTxns n payload) s
  | .movxmt => moveTransmit s
  | .rdtx => issueAll rdtxTxns s

end Sys2Proof.Machine
end

