-- ==== Sys2Proof/Machine/HostSequence.lean ====
section
/-!
DEFINITION. Machine/HostSequence: the host's side of one synchronisation attempt (42_host_sequence.md), a machine of its
own around the block.

00_scope.md R6 puts TransportSession and SyncController outside the block and writes them down "so that a model of the
whole attempt can be built".  `syncStep` is that model: it drives the block through `perform` only.  Nothing of it is in
`State`, and `step` does not use it.  Assumption log 14.
-/

namespace Sys2Proof.Machine

/-- The caller's configuration (00_scope.md R11, 42_host_sequence.md R187, R188).  All of it is supplied by the caller. -/
structure SyncConfig where
  serverAddress : Nat
  /-- "port (default 123)" -/
  port : Nat := 123
  /-- The per-attempt timeout.  The model of the host models no time (93_implementation_defined.md S4): that the deadline has
  passed is an event. -/
  timeoutMs : Nat
  maxRetries : Nat
  /-- A version to write to `CFG_VN`, if the host wants one other than what is there. -/
  version : Option (BitVec 3)
  /-- The transmit timestamp to place in the request, if the host wants one. -/
  transmit : Option Timestamp
  deriving DecidableEq, Repr

/-- Why a call of `synchronize` failed (60_exceptions.md R210; the two validation failures are named in
42_host_sequence.md R192). -/
inductive SyncError where
  | connectNoRoute
  | timeout
  | io
  | decode (e : DecodeError)
  | zeroTransmit
  | stratumOutOfRange
  | conversion (e : ConversionError)
  deriving DecidableEq, Repr

/-- The success arm of the document's `SyncResult` (42_host_sequence.md R194), each value as the host read it. -/
structure SyncSuccess where
  epochSeconds : Nat
  subSecondFraction : Nat
  stratum : Nat
  precision : Nat
  deriving DecidableEq, Repr

/-- The states of 42_host_sequence.md R186. -/
inductive SyncPhase where
  | idle
  | requesting
  | awaitingResponse
  | validating
  | converting
  | doneSuccess (r : SyncSuccess)
  | doneFailure (e : SyncError)
  deriving DecidableEq, Repr

/-- The call has ended (42_host_sequence.md R186). -/
def SyncPhase.isDone : SyncPhase → Bool
  | .doneSuccess _ => true
  | .doneFailure _ => true
  | .idle | .requesting | .awaitingResponse | .validating | .converting => false

/-- A datagram sent. -/
structure Datagram where
  /-- The local port of the endpoint it is sent from (42_host_sequence.md R181). -/
  localPort : Nat
  address : Nat
  port : Nat
  payload : List Byte
  deriving DecidableEq, Repr

/-- What can happen during the wait inside `exchange` (42_host_sequence.md R182). -/
inductive NetEvent where
  /-- A datagram arrives at the endpoint, from this address and port. -/
  | datagram (address port : Nat) (payload : List Byte)
  /-- The timeout elapses. -/
  | deadline
  /-- A lower-layer receive failure. -/
  | ioFailure
  deriving DecidableEq, Repr

/-- A datagram from the address and port the request went to, which ends the wait (42_host_sequence.md R182). -/
def NetEvent.isResponse (cfg : SyncConfig) : NetEvent → Bool
  | .datagram address port _ => address == cfg.serverAddress && port == cfg.port
  | .deadline => false
  | .ioFailure => false

/-- The transport's endpoint while it is owned, with the ephemeral local port it is bound to (42_host_sequence.md R181):
opened, or opened and the request sent. -/
inductive Session where
  | opened (localPort : Nat)
  | waiting (localPort : Nat)
  deriving DecidableEq, Repr

/-- One call of `synchronize` in progress. -/
structure SyncState where
  /-- The block the host drives. -/
  block : State
  cfg : SyncConfig
  phase : SyncPhase
  /-- `requestBytes`: what the host read from `TXBUF`. -/
  request : List Byte
  /-- Retries already used (42_host_sequence.md R195). -/
  retries : Nat
  /-- The endpoint, while the transport owns one (42_host_sequence.md R184). -/
  endpoint : Option Session
  /-- Endpoints acquired and endpoints released so far. -/
  acquired : Nat
  released : Nat
  /-- Datagrams sent, latest first. -/
  sent : List Datagram
  /-- The local instants the transport records (42_host_sequence.md R183). -/
  transmitInstant : Option Nat
  receiveInstant : Option Nat
  /-- Readings of the local clock made so far. -/
  clockReads : Nat
  /-- INPUT: for each `open` to come, whether the network layer can resolve a path; none listed: it can. -/
  routes : List Bool
  /-- INPUT: for each send to come, whether the lower layer sends the datagram; none listed: it does. -/
  sends : List Bool
  /-- INPUT: what happens during the waits to come; none listed: no response arrives. -/
  net : List NetEvent
  deriving DecidableEq, Repr

/-- A call of `synchronize` about to start, on a block in any state.  The counts of endpoints acquired and of clock readings
start at 0 in each call, and the spec says nothing of how two calls compare in them.  So two DESIGN CHOICES: the n-th endpoint of
every call has the same local port, assumption log 22, and every call reads the clock from the same first reading on,
assumption log 15.  A claim that compares the ports or the instants of two calls must not rest on either. -/
def SyncState.start (cfg : SyncConfig) (block : State) (routes sends : List Bool) (net : List NetEvent) : SyncState :=
  { block := block, cfg := cfg, phase := .idle, request := [], retries := 0, endpoint := none, acquired := 0
    released := 0, sent := [], transmitInstant := none, receiveInstant := none, clockReads := 0, routes := routes
    sends := sends, net := net }

/-- `Done(failure)`. -/
def SyncState.fail (s : SyncState) (e : SyncError) : SyncState := { s with phase := .doneFailure e }

/-- The endpoint is closed (42_host_sequence.md R184). -/
def SyncState.release (s : SyncState) : SyncState :=
  match s.endpoint with
  | some _ => { s with endpoint := none, released := s.released + 1 }
  | none => s

/-- The byte a read gave back, if it was a buffer read. -/
def ReadResult.byte : ReadResult → Option Byte
  | .buf _ _ b => some b
  | .reg _ _ => none

/-- The transactions of Requesting (42_host_sequence.md R188). -/
def requestTxns (cfg : SyncConfig) : List Txn :=
  (match cfg.version with
    | some v => [wrTxn .cfgVn v.toNat]
    | none => []) ++
  (match cfg.transmit with
    | some t => [wrTxn .cfgTxen 1, wrTxn .txSec t.seconds.toNat, wrTxn .txFrac t.fraction.toNat]
    | none => [wrTxn .cfgTxen 0]) ++
  [commandTxn .enc] ++ rdtxTxns

/-- Requesting: build the request and read the 48 bytes (42_host_sequence.md R188). -/
def requestStep (s : SyncState) : Host.Outcome SyncState Fault Refusal :=
  match issueAll (requestTxns s.cfg) s.block with
  | .next b =>
    .next { s with
      block := b, request := ((b.returned.take pktLen).reverse).filterMap ReadResult.byte, phase := .awaitingResponse }
  | .fault r => .fault r
  | .refused r => .refused r

/-- The `n`-th reading of the host's local clock in a call.  It is monotonic (42_host_sequence.md R183): each reading is the one
before it and an advance that nothing fixes.  Assumption log 15. -/
def localClock : Nat → Nat
  | 0 => Config.clockStart
  | n + 1 => localClock n + Config.clockAdvance n

/-- An endpoint acquired, bound to an ephemeral local port (42_host_sequence.md R181). -/
def SyncState.acquire (s : SyncState) : SyncState :=
  { s with endpoint := some (.opened (Config.ephemeralPort s.acquired)), acquired := s.acquired + 1 }

/-- `open` (42_host_sequence.md R181).  `NoRoute` is not retried and acquires nothing (R196). -/
def openStep (s : SyncState) : SyncState :=
  match s.routes with
  | false :: rest => ({ s with routes := rest }).fail .connectNoRoute
  | true :: rest => ({ s with routes := rest }).acquire
  | [] => s.acquire

/-- The local transmit instant, recorded immediately before sending (42_host_sequence.md R183). -/
def SyncState.stampTransmit (s : SyncState) : SyncState :=
  { s with transmitInstant := some (localClock s.clockReads), clockReads := s.clockReads + 1 }

/-- The local receive instant, recorded immediately after receiving (42_host_sequence.md R183). -/
def SyncState.stampReceive (s : SyncState) : SyncState :=
  { s with receiveInstant := some (localClock s.clockReads), clockReads := s.clockReads + 1 }

/-- The request sent as a single datagram from the endpoint, which then waits (42_host_sequence.md R182). -/
def SyncState.send (s : SyncState) (localPort : Nat) : SyncState :=
  { s with
    sent := { localPort := localPort, address := s.cfg.serverAddress, port := s.cfg.port, payload := s.request } :: s.sent
    endpoint := some (.waiting localPort) }

/-- A transient failure (42_host_sequence.md R195): the endpoint is released, and the transport is opened afresh while
retries are left. -/
def SyncState.transient (s : SyncState) (e : SyncError) : SyncState :=
  if s.retries < s.cfg.maxRetries then { s.release with retries := s.retries + 1 } else s.release.fail e

/-- The first half of `exchange` (42_host_sequence.md R182): the local instant, then the datagram.  A lower-layer send
failure sends nothing and is an `IoError`. -/
def sendStep (s : SyncState) (localPort : Nat) : SyncState :=
  match s.sends with
  | false :: rest => ({ s with sends := rest }).stampTransmit.transient .io
  | true :: rest => ({ s with sends := rest }).stampTransmit.send localPort
  | [] => s.stampTransmit.send localPort

/-- AwaitingResponse in terms of the block: the response goes to `RXLEN` and `RXBUF` (42_host_sequence.md R189).  The
endpoint is released here, when `exchange` returns and before Validating: R184 fixes that it is released on every exit path
but not the moment on this one, so the moment is a DESIGN CHOICE, assumption log 20. -/
def receiveStep (s : SyncState) (payload : List Byte) : Host.Outcome SyncState Fault Refusal :=
  match issueAll (ldrxTxns (min payload.length 65535) payload) s.block with
  | .next b =>
    .next { s.stampReceive.release with block := b, phase := .validating }
  | .fault r => .fault r
  | .refused r => .refused r

/-- The wait inside `exchange` (42_host_sequence.md R182): it ends with a datagram from the address and port the request
went to, with the deadline or with a receive failure; a datagram from elsewhere does not end it. -/
def waitStep (s : SyncState) : Host.Outcome SyncState Fault Refusal :=
  match s.net with
  | [] => .next (s.transient .timeout)
  | .deadline :: rest => .next (({ s with net := rest }).transient .timeout)
  | .ioFailure :: rest => .next (({ s with net := rest }).transient .io)
  | .datagram address port payload :: rest =>
    if (NetEvent.datagram address port payload).isResponse s.cfg then receiveStep { s with net := rest } payload
    else .next { s with net := rest }

/-- AwaitingResponse: `open`, then `exchange` (42_host_sequence.md R189). -/
def awaitStep (s : SyncState) : Host.Outcome SyncState Fault Refusal :=
  match s.endpoint with
  | none => .next (openStep s)
  | some (.opened localPort) => .next (sendStep s localPort)
  | some (.waiting _) => waitStep s

/-- The `DecodeError` behind an outcome code, as the host reads it (42_host_sequence.md R190). -/
def decodeErrorOf (c : BitVec 3) : Option DecodeError :=
  if c = 1#3 then some .shortBuffer
  else if c = 2#3 then some .invalidMode
  else if c = 3#3 then some .kissOfDeath
  else none

/-- The sanity checks (42_host_sequence.md R191): A, the transmit pair is not zero; B, the stratum is 1 to 15. -/
def sanityStep (s : SyncState) : Host.Outcome SyncState Fault Refusal :=
  hostRead .recXmtSec s.block fun sec b =>
    hostRead .recXmtFrac b fun frac b =>
      if sec = 0 ∧ frac = 0 then .next (({ s with block := b }).fail .zeroTransmit)
      else
        hostRead .recStratum b fun stratum b =>
          if 1 ≤ stratum ∧ stratum ≤ 15 then .next { s with block := b, phase := .converting }
          else .next (({ s with block := b }).fail .stratumOutOfRange)

/-- Validating: `CMD DEC`, `STATUS`, then the sanity checks (42_host_sequence.md R190). -/
def validateStep (s : SyncState) : Host.Outcome SyncState Fault Refusal :=
  match perform (commandTxn .dec) s.block with
  | .next b =>
    hostRead .status b fun st b =>
      match decodeErrorOf (errField (BitVec.ofNat 8 st)) with
      | some e => .next (({ s with block := b }).fail (.decode e))
      | none => sanityStep { s with block := b }
  | .fault r => .fault r
  | .refused r => .refused r

/-- The host's result after a conversion (42_host_sequence.md R194). -/
def resultStep (s : SyncState) : Host.Outcome SyncState Fault Refusal :=
  hostRead .epoch s.block fun e b =>
    hostRead .subsec b fun q b =>
      hostRead .recStratum b fun stratum b =>
        hostRead .recPrecision b fun precision b =>
          .next { s with
            block := b
            phase := .doneSuccess
              { epochSeconds := e, subSecondFraction := q, stratum := stratum, precision := precision } }

/-- Converting: the record's transmit timestamp through CONV (42_host_sequence.md R193). -/
def convertStep (s : SyncState) : Host.Outcome SyncState Fault Refusal :=
  match moveTransmit s.block with
  | .next b =>
    match perform (commandTxn .conv) b with
    | .next b =>
      hostRead .status b fun st b =>
        if errField (BitVec.ofNat 8 st) = errorCode (.conversion .beforeEpoch) then
          .next (({ s with block := b }).fail (.conversion .beforeEpoch))
        else resultStep { s with block := b }
    | .fault r => .fault r
    | .refused r => .refused r
  | .fault r => .fault r
  | .refused r => .refused r

/-- One step of the host's state machine (42_host_sequence.md R186, R187); a call that has ended stays ended.  No reset of the
block comes during a call: the spec lets one come at any time (70_reset_and_hazards.md R250) and does not say what the host then
does, so leaving it out of this machine's inputs is a DESIGN CHOICE, assumption log 24. -/
def syncStep (s : SyncState) : Host.Outcome SyncState Fault Refusal :=
  match s.phase with
  | .idle => .next { s with phase := .requesting }
  | .requesting => requestStep s
  | .awaitingResponse => awaitStep s
  | .validating => validateStep s
  | .converting => convertStep s
  | .doneSuccess _ => .next s
  | .doneFailure _ => .next s

/-- `n` steps of the host's state machine. -/
def syncRun : Nat → SyncState → Host.Outcome SyncState Fault Refusal
  | 0, s => .next s
  | n + 1, s =>
    match syncStep s with
    | .next s' => syncRun n s'
    | .fault r => .fault r
    | .refused r => .refused r

end Sys2Proof.Machine
end

