-- ==== Sys2Proof/WellFormed.lean ====
section
/-!
DEFINITION. WellFormed: which commands and host transactions are terms of the interface at all.

The checks look at the term alone, not at the state: a well-formed transaction may still be refused (a read
of a register that holds no value).
-/

namespace Sys2Proof

/-- Every command is well formed: a code has no operand fields to be wrong (30_encoding.md R110). -/
def Instr.wf : Instr → Bool
  | .enc => true
  | .dec => true
  | .conv => true

namespace Machine

/-- A host transaction the interface has: the register may be accessed that way, the data has the
register's width, the buffer cell exists and, for a write, lies in `RX` (10_state.md R43, 20_memory.md R60). -/
def Txn.wf : Txn → Bool
  | .regWrite r d => r.access != .ro && d.fits r.width
  | .regRead r => r.access != .wo
  | .bufWrite sp a d => sp == .rx && decide (a < pktLen) && d.fits 8
  | .bufRead _ a => decide (a < pktLen)

/-- An event with a well-formed transaction of the one host, or a reset. -/
def Event.wf : Event → Bool
  | .host t => t.wf
  | .reset => true
  | .secondHost _ => false

end Machine

end Sys2Proof
end

