-- ==== Sys2Proof/Safety.lean ====
section
/-!
DEFINITION. Safety: the invariant of the block, the host's contract, and the premise on the true time, in the terms the
claims use.
-/

namespace Sys2Proof.Machine

/-- `STATUS` is as 10_state.md R29 and 30_encoding.md R112 say it reads: bits 7:6 are 0 and `ERR` is one of the five codes. -/
def StatusOk (s : State) : Prop := unusedField s.status = 0#2 ∧ s.err.toNat ≤ 4

/-- `TVALID` says exactly whether the `TXBUF` bytes hold values (10_state.md R38), and what they hold then is a request:
`LI` 0, mode 3, and zeros from byte 1 to byte 39 (40_packet_codec.md R132). -/
def TransmitOk (s : State) : Prop :=
  (s.tvalid = false → s.txbuf = []) ∧
  (s.tvalid = true →
    (∀ a, a < pktLen → (s.txbuf.read a).isSome) ∧
    (∃ vn : BitVec 3, s.txbuf.read 0 = some (makeFlags 0#2 vn clientMode)) ∧
    ∀ a, 1 ≤ a → a < 40 → s.txbuf.read a = some 0#8)

/-- `RVALID` says exactly whether the fifteen record registers hold values (10_state.md R38); a held record is of server
mode and its stratum is not 0 (10_state.md R32). -/
def RecordOk (s : State) : Prop :=
  (s.rvalid = false → s.record = RecordRegs.noValue) ∧
  (s.rvalid = true →
    ∃ p : NtpPacket, s.record = RecordRegs.ofPacket p ∧ flagsMode p.flags = serverMode ∧ p.stratum ≠ 0#8)

/-- `CVALID` says exactly whether `EPOCH` and `SUBSEC` hold values (10_state.md R38); `EPOCH` is then at most
2,085,978,495 (10_state.md R28). -/
def CalendarOk (s : State) : Prop :=
  (s.cvalid = false → s.epoch = none ∧ s.subsec = none) ∧
  (s.cvalid = true → ∃ e q : Word, s.epoch = some e ∧ s.subsec = some q ∧ e.toNat ≤ 2085978495)

/-- The invariant of the block: what holds at reset and after every step. -/
structure Inv (s : State) : Prop where
  status : StatusOk s
  transmit : TransmitOk s
  record : RecordOk s
  calendar : CalendarOk s
  txWf : s.txbuf.wf = true
  rxWf : s.rxbuf.wf = true

/-- The host's contract (42_host_sequence.md R200): what the spec gives a meaning in the state `s`.  Any command code that
is not reserved, any write of an "rw" register or an `RXBUF` byte, any read of what holds a value; any `RXBUF` byte may be
read (10_state.md R43).  A reset may come at any time (70_reset_and_hazards.md R250). -/
def Event.legal (s : State) : Event → Prop
  | .reset => True
  | .secondHost _ => False
  | .host (.regWrite .cmd d) => d.fits 8 = true ∧ 1 ≤ d.value ∧ d.value ≤ 3
  | .host (.regWrite r d) => r.access = .rw ∧ d.fits r.width = true
  | .host (.regRead r) => r.access ≠ .wo ∧ (s.regValue r).isSome
  | .host (.bufWrite sp a d) => sp = .rx ∧ a < pktLen ∧ d.fits 8 = true
  | .host (.bufRead .rx a) => a < pktLen
  | .host (.bufRead .tx a) => a < pktLen ∧ (s.txbuf.read a).isSome

/-- Two states with the same architectural state: every field of the spec's agrees; the model's own fields (`inbox`,
`returned`, `draws`) may differ. -/
def SameBlock (s t : State) : Prop :=
  s.status = t.status ∧ s.cfgVn = t.cfgVn ∧ s.cfgTxen = t.cfgTxen ∧ s.txSec = t.txSec ∧ s.txFrac = t.txFrac ∧
  s.txbuf = t.txbuf ∧ s.rxbuf = t.rxbuf ∧ s.rxlen = t.rxlen ∧ s.record = t.record ∧ s.convSec = t.convSec ∧
  s.convFrac = t.convFrac ∧ s.epoch = t.epoch ∧ s.subsec = t.subsec

/-- The bytes `buf` shows at `a` to `a+3`, read as one big-endian number: `MemRead(S:a, 4)` by the sum of 00_scope.md R14
(40_packet_codec.md R142's `BE32`). -/
def bigEndian (buf : Nat → Byte) (a : Nat) : Nat :=
  (buf a).toNat * 2 ^ 24 + (buf (a + 1)).toNat * 2 ^ 16 + (buf (a + 2)).toNat * 2 ^ 8 + (buf (a + 3)).toNat

/-- DEC succeeds on what the receive buffer shows: a full buffer of server mode whose stratum is not 0
(40_packet_codec.md R145). -/
def DecAccepts (s : State) : Prop :=
  48 ≤ s.rxlen.toNat ∧ flagsMode (s.rxByte 0) = serverMode ∧ s.rxByte 1 ≠ 0#8

/-- The premise of any claim about the delivered time (41_time_converter.md R167, 93_implementation_defined.md S1): the true
time, in seconds since 1 January 1900, lies in era 0. -/
def InEra0 (trueSeconds : Nat) : Prop := trueSeconds < 2 ^ 32

/-- What a correct server puts in the seconds field at a true time: the field covers one era and repeats (30_encoding.md R100). -/
def secondsField (trueSeconds : Nat) : Word := BitVec.ofNat 32 trueSeconds

/-- Every endpoint acquired has been released but for the one in hand, and a call that has ended has none in hand
(42_host_sequence.md R184). -/
def EndpointOk (s : SyncState) : Prop :=
  s.acquired = s.released + (if s.endpoint.isSome then 1 else 0) ∧
  (s.phase ≠ .awaitingResponse → s.endpoint = none)

/-- The local instants (42_host_sequence.md R183): none lies after what the clock reads next, and a call that waits for its
response has recorded the transmit instant; one that has its response has recorded both, the transmit instant first. -/
structure InstantsOk (s : SyncState) : Prop where
  past : ∀ t ∈ s.transmitInstant, t ≤ localClock s.clockReads
  waiting : ∀ localPort, s.endpoint = some (.waiting localPort) → s.transmitInstant.isSome
  received : s.phase = .validating ∨ s.phase = .converting →
    ∃ t r, s.transmitInstant = some t ∧ s.receiveInstant = some r ∧ t ≤ r

end Sys2Proof.Machine
end

