-- ==== Sys2Proof/Certificates/Slice0/Obligations.lean ====
section
/-!
DEFINITION. Obligations: the statements about the block for the provers, taken from the spec's numbered rules.

Each docstring names the rule or the section of spec/ the statement formalises.
-/

open Sys2Proof Sys2Proof.Machine

/-! ## Reset -/

/-- 10_state.md R42: the reset value of every register and buffer, and the outcome of each command issued straight after
reset.  The three fields of the model's own are not part of it.  "novalue" is `none` and "unspecified" an unlisted cell
(assumption log 3 and 4). -/
def Obligations.ResetValuesAndFirstCommands : Prop :=
  (State.reset.status = 0x00#8 ∧ State.reset.err = 0#3 ∧ State.reset.tvalid = false ∧ State.reset.rvalid = false ∧
    State.reset.cvalid = false) ∧
  (State.reset.cfgVn = 4#3 ∧ State.reset.cfgTxen = 0#1 ∧ State.reset.txSec = 0#32 ∧ State.reset.txFrac = 0#32 ∧
    State.reset.rxlen = 0#16 ∧ State.reset.convSec = 0#32 ∧ State.reset.convFrac = 0#32) ∧
  (State.reset.epoch = none ∧ State.reset.subsec = none ∧ (∀ r : Reg, 11 ≤ r.index → State.reset.regValue r = none) ∧
    (∀ a, State.reset.txbuf.read a = none) ∧ ∀ a, State.reset.rxbuf.read a = none) ∧
  (∃ t, exec .enc State.reset = .next t ∧ t.status = 0x08#8 ∧ t.txbuf.read 0 = some 0x23#8 ∧
    ∀ a, 1 ≤ a → a < 48 → t.txbuf.read a = some 0x00#8) ∧
  (∃ t, exec .dec State.reset = .next t ∧ t.status = 0x01#8) ∧
  ∃ t, exec .conv State.reset = .next t ∧ t.status = 0x04#8

/-- 70_reset_and_hazards.md R250: a reset, whenever it comes, puts every piece of the block's state to its reset value,
whatever it held before, and is ordered with the transactions around it.  That the events still waiting stay is the model's choice
(assumption log 9). -/
def Obligations.ResetEventRestoresEverything : Prop :=
  ∀ (s : State) (rest : List Event), s.inbox = .reset :: rest →
    ∃ t, step s = .next t ∧ SameBlock t State.reset ∧ t.inbox = rest

/-! ## Format C and the step -/

/-- 30_encoding.md R110: the three codes, each compared as a whole byte. -/
def Obligations.CommandCodesDecode : Prop :=
  decode 0b00000001#8 = .command .enc ∧ decode 0b00000010#8 = .command .dec ∧
  decode 0b00000011#8 = .command .conv ∧ ∀ (c : Byte) (i : Instr), decode c = .command i ↔ c = encode i

/-- 30_encoding.md R111: a reserved code written to `CMD` selects no command and has no next state. -/
def Obligations.ReservedCodesAreRefused : Prop :=
  ∀ (s : State) (c : Byte) (rest : List Event), (c.toNat = 0 ∨ 4 ≤ c.toNat) →
    s.inbox = .host (cmdTxn { width := 8, value := c.toNat }) :: rest → step s = .refused (.reservedCommand c)

/-- 10_state.md R22, 20_memory.md R78, 70_reset_and_hazards.md R258: the write of a command's code to `CMD` runs that command, and it
completes in the same step. -/
def Obligations.StepRunsDecodedCommand : Prop :=
  ∀ (s : State) (c : Byte) (i : Instr) (rest : List Event), decode c = .command i →
    s.inbox = .host (cmdTxn { width := 8, value := c.toNat }) :: rest → step s = exec i (s.withInbox rest)

/-- The opcode table's word, given to the block as the next event, runs as the very next step (the model's own rendering of a
program: assumption log 2 and 13). -/
def Obligations.FetchWordRunsTableCommand : Prop :=
  ∀ (s : State) (nbits w : Nat) (i : Instr), decodeTableWord nbits w = some i →
    step (s.withFetchWord nbits w) = exec i s

/-- 10_state.md R40: with nothing to do the block is idle and nothing changes.  That an idle step is a step at all is the model's
choice (assumption log 1). -/
def Obligations.IdleStepChangesNothing : Prop :=
  ∀ s : State, s.inbox = [] → step s = .next s

/-- 20_memory.md R75: events take effect one by one in the order in which they are issued: a step is the effect of the first event
waiting, and leaves exactly the others waiting.  That events wait in a field of State is the model's choice (assumption log 1), and so is
that a reset leaves the others waiting (assumption log 9). -/
def Obligations.EventsAreTakenInOrder : Prop :=
  ∀ (s : State) (e : Event) (rest : List Event), s.inbox = e :: rest →
    step s = handle e (s.withInbox rest) ∧ ∀ t, step s = .next t → t.inbox = rest

/-! ## Format W -/

/-- 30_encoding.md R91: the positions of `LI`, `VN` and `MODE` in the flags byte.  The spec takes the positions from general
knowledge (assumption log 11). -/
def Obligations.FlagsByteLayout : Prop :=
  ∀ (li : BitVec 2) (vn mode : BitVec 3),
    (makeFlags li vn mode).toNat = li.toNat * 64 + vn.toNat * 8 + mode.toNat ∧
    flagsLI (makeFlags li vn mode) = li ∧ flagsVN (makeFlags li vn mode) = vn ∧ flagsMode (makeFlags li vn mode) = mode

/-- 40_packet_codec.md R148, laws (a) and (b), with `marshal` of R147: the decoder of the wire format and its encoder are
inverse to each other, so decoding drops and invents no bit. -/
def Obligations.WireFormatRoundTrips : Prop :=
  (∀ r : NtpPacket, flagsMode r.flags = serverMode → r.stratum ≠ 0#8 →
    decodeResponse 48#16 (imageByte (marshal r)) = .ok r) ∧
  ∀ buf : Nat → Byte, flagsMode (buf 0) = serverMode → buf 1 ≠ 0#8 →
    ∃ r, decodeResponse 48#16 buf = .ok r ∧ (marshal r).length = 48 ∧ ∀ a, a < 48 → imageByte (marshal r) a = buf a

/-- 40_packet_codec.md R148, laws (c) and (d): from 48 bytes on the length plays no part, and below 48 the bytes play none. -/
def Obligations.DecodeIgnoresLengthOrBytes : Prop :=
  (∀ (len len' : BitVec 16) (buf : Nat → Byte), 48 ≤ len.toNat → 48 ≤ len'.toNat →
    decodeResponse len buf = decodeResponse len' buf) ∧
  ∀ (len : BitVec 16) (buf buf' : Nat → Byte), len.toNat < 48 → decodeResponse len buf = decodeResponse len buf'

/-- 20_memory.md R62, 40_packet_codec.md R148 (e): a 32-bit value stored anywhere in a buffer lies there most significant byte first,
reads back as itself, and leaves every other address alone. -/
def Obligations.StoredWordsAreBigEndian : Prop :=
  ∀ (m : Memory) (a : Nat) (v : Word),
    (∀ k, k < 4 → ∃ b, (Memory.store m a (wordBytes v)).read (a + k) = some b ∧
      b.toNat = v.toNat / 2 ^ (8 * (3 - k)) % 256) ∧
    (∀ x, x < a ∨ a + 4 ≤ x → (Memory.store m a (wordBytes v)).read x = m.read x) ∧
    ∀ buf : Nat → Byte, (∀ k, k < 4 → (Memory.store m a (wordBytes v)).read (a + k) = some (buf (a + k))) →
      memRead4 buf a = v ∧ bigEndian buf a = v.toNat

/-- 20_memory.md R64: one byte of a 4-byte field at base address `f` is the slice of the field's value the rule names. -/
def Obligations.FieldBytesAreSlices : Prop :=
  ∀ (buf : Nat → Byte) (f a : Nat), f ≤ a → a < f + 4 →
    buf a = (memRead4 buf f).extractLsb' (8 * (3 - (a - f))) 8

/-! ## ENC -/

/-- 40_packet_codec.md R135: ENC, its code, and for every state its effect.  `TXBUF` is the image `encodeRequest` gives, which is also what the `MemWrite`
lines store; the flags written; everything else untouched. -/
def Obligations.EncCommandRule : Prop :=
  decode 0x01#8 = .command .enc ∧
  ∀ s : State, ∃ t, exec .enc s = .next t ∧
    (∀ a, a < 48 → t.txbuf.read a = some (imageByte (encodeRequest s.cfgVn s.cfgTxen s.txSec s.txFrac) a)) ∧
    (∃ b, t.txbuf.read 0 = some b ∧ b.toNat = s.cfgVn.toNat * 8 + 3) ∧
    (∀ a, 1 ≤ a → a < 40 → t.txbuf.read a = some 0#8) ∧
    (∀ k, k < 4 → t.txbuf.read (40 + k) =
      some ((if s.cfgTxen = 1#1 then s.txSec else 0#32).extractLsb' (8 * (3 - k)) 8)) ∧
    (∀ k, k < 4 → t.txbuf.read (44 + k) =
      some ((if s.cfgTxen = 1#1 then s.txFrac else 0#32).extractLsb' (8 * (3 - k)) 8)) ∧
    t.tvalid = true ∧ t.err = 0#3 ∧ t.rvalid = s.rvalid ∧ t.cvalid = s.cvalid ∧
    unusedField t.status = unusedField s.status ∧ t = { s with status := t.status, txbuf := t.txbuf }

/-- 40_packet_codec.md R132, R147: the request image is the `marshal` of the request's record, and it has 48 bytes. -/
def Obligations.RequestImageIsMarshal : Prop :=
  ∀ (vn : BitVec 3) (txen : BitVec 1) (sec frac : Word),
    encodeRequest vn txen sec frac = marshal (requestRecord vn txen sec frac) ∧
    (encodeRequest vn txen sec frac).length = 48

/-- 40_packet_codec.md R133: the transmit timestamp is the operands when `txen` is 1, and zero whatever they hold when it is 0. -/
def Obligations.RequestTransmitIsOptional : Prop :=
  ∀ (vn : BitVec 3) (sec frac : Word),
    (bigEndian (imageByte (encodeRequest vn 1#1 sec frac)) 40 = sec.toNat ∧
      bigEndian (imageByte (encodeRequest vn 1#1 sec frac)) 44 = frac.toNat) ∧
    ∀ a, 40 ≤ a → a < 48 → imageByte (encodeRequest vn 0#1 sec frac) a = 0#8

/-- 40_packet_codec.md R136 (f): a request loaded into `RXBUF` is no valid response; DEC reports `InvalidMode`. -/
def Obligations.RequestIsNotAResponse : Prop :=
  ∀ (s : State) (vn : BitVec 3) (txen : BitVec 1) (sec frac : Word), 48 ≤ s.rxlen.toNat →
    (∀ a, a < 48 → s.rxbuf.read a = some (imageByte (encodeRequest vn txen sec frac) a)) →
    ∃ t, exec .dec s = .next t ∧ t.err = 2#3 ∧ t.rvalid = false

/-- The frame of ENC by buffer and byte (20_memory.md R60, R68): it stores to `TX:0` to `TX:47` and to nothing else. -/
def Obligations.EncFrame : Prop :=
  ∀ s t : State, exec .enc s = .next t →
    (∀ a, 48 ≤ a → t.txbuf.read a = s.txbuf.read a) ∧ (∀ a, t.rxbuf.read a = s.rxbuf.read a) ∧
    (∀ r : Reg, r ≠ .status → t.regValue r = s.regValue r) ∧
    t.inbox = s.inbox ∧ t.returned = s.returned ∧ t.draws = s.draws

/-! ## DEC -/

/-- 40_packet_codec.md R144: DEC, its code, and for every state: the three checks in their priority, the record on success, its loss on an error, the
flags written, everything else untouched.  A byte of `RXBUF` the host has not written is a free value (`rxByte`), so the statement
holds whatever such a byte shows; the draw counter is the model's own. -/
def Obligations.DecCommandRule : Prop :=
  decode 0x02#8 = .command .dec ∧
  ∀ s : State, ∃ t, exec .dec s = .next t ∧
    (s.rxlen.toNat < 48 → t.err = 1#3 ∧ t.rvalid = false ∧ t.record = RecordRegs.noValue ∧ t.draws = s.draws) ∧
    (48 ≤ s.rxlen.toNat → (s.rxByte 0).extractLsb' 0 3 ≠ 4#3 →
      t.err = 2#3 ∧ t.rvalid = false ∧ t.record = RecordRegs.noValue) ∧
    (48 ≤ s.rxlen.toNat → (s.rxByte 0).extractLsb' 0 3 = 4#3 → s.rxByte 1 = 0#8 →
      t.err = 3#3 ∧ t.rvalid = false ∧ t.record = RecordRegs.noValue) ∧
    (48 ≤ s.rxlen.toNat → (s.rxByte 0).extractLsb' 0 3 = 4#3 → s.rxByte 1 ≠ 0#8 →
      t.err = 0#3 ∧ t.rvalid = true ∧
      t.record.flags = some (s.rxByte 0) ∧ t.record.stratum = some (s.rxByte 1) ∧
      t.record.poll = some (s.rxByte 2) ∧ t.record.precision = some (s.rxByte 3) ∧
      t.record.rootDelay.map BitVec.toNat = some (bigEndian s.rxByte 4) ∧
      t.record.rootDisp.map BitVec.toNat = some (bigEndian s.rxByte 8) ∧
      t.record.refId.map BitVec.toNat = some (bigEndian s.rxByte 12) ∧
      t.record.refSec.map BitVec.toNat = some (bigEndian s.rxByte 16) ∧
      t.record.refFrac.map BitVec.toNat = some (bigEndian s.rxByte 20) ∧
      t.record.orgSec.map BitVec.toNat = some (bigEndian s.rxByte 24) ∧
      t.record.orgFrac.map BitVec.toNat = some (bigEndian s.rxByte 28) ∧
      t.record.rcvSec.map BitVec.toNat = some (bigEndian s.rxByte 32) ∧
      t.record.rcvFrac.map BitVec.toNat = some (bigEndian s.rxByte 36) ∧
      t.record.xmtSec.map BitVec.toNat = some (bigEndian s.rxByte 40) ∧
      t.record.xmtFrac.map BitVec.toNat = some (bigEndian s.rxByte 44)) ∧
    t.tvalid = s.tvalid ∧ t.cvalid = s.cvalid ∧ unusedField t.status = unusedField s.status ∧
    t = { s with status := t.status, record := t.record, draws := t.draws }

/-- 40_packet_codec.md R145, 60_exceptions.md R215: DEC ends with exactly one of four outcomes, and which one is decided by length,
then mode, then stratum. -/
def Obligations.DecEndsWithOneOfFourOutcomes : Prop :=
  ∀ s : State, ∃ t, exec .dec s = .next t ∧
    (t.err = 0#3 ↔ DecAccepts s) ∧
    (t.err = 1#3 ↔ s.rxlen.toNat < 48) ∧
    (t.err = 2#3 ↔ 48 ≤ s.rxlen.toNat ∧ flagsMode (s.rxByte 0) ≠ serverMode) ∧
    (t.err = 3#3 ↔ 48 ≤ s.rxlen.toNat ∧ flagsMode (s.rxByte 0) = serverMode ∧ s.rxByte 1 = 0#8) ∧
    t.err.toNat ≤ 3 ∧ (t.rvalid = true ↔ t.err = 0#3)

/-- 40_packet_codec.md R143: every field but the mode and the stratum's being zero is carried unexamined: any two buffers that agree on
the mode and on whether the stratum is zero get the same outcome. -/
def Obligations.DecChecksNothingElse : Prop :=
  ∀ s s' t t' : State, exec .dec s = .next t → exec .dec s' = .next t' →
    (s.rxlen.toNat < 48 ↔ s'.rxlen.toNat < 48) → flagsMode (s.rxByte 0) = flagsMode (s'.rxByte 0) →
    (s.rxByte 1 = 0#8 ↔ s'.rxByte 1 = 0#8) → t.err = t'.err ∧ t.rvalid = t'.rvalid

/-- 40_packet_codec.md R138, 20_memory.md R68: a short buffer is `ShortBuffer` and no byte of it is read: whatever two states hold in
`RXBUF`, the states after are the same but for `RXBUF` itself. -/
def Obligations.ShortBufferIsNotRead : Prop :=
  (∀ (len : BitVec 16) (buf : Nat → Byte), len.toNat < 48 → decodeResponse len buf = .error .shortBuffer) ∧
  ∀ (s : State) (m : Memory), s.rxlen.toNat < 48 →
    ∃ t, exec .dec s = .next t ∧ t.err = 1#3 ∧ exec .dec (s.withRxbuf m) = .next (t.withRxbuf m)

/-- 40_packet_codec.md R141, 20_memory.md R68: from 48 bytes on, DEC's result depends on the bytes at `RX:0` to `RX:47` only, not on the
length and not on anything beyond. -/
def Obligations.DecReadsOnlyFirst48Bytes : Prop :=
  ∀ s s' t t' : State, exec .dec s = .next t → exec .dec s' = .next t' →
    48 ≤ s.rxlen.toNat → 48 ≤ s'.rxlen.toNat → (∀ a, a < 48 → s.rxByte a = s'.rxByte a) →
    t.err = t'.err ∧ t.rvalid = t'.rvalid ∧ t.record = t'.record

/-- 40_packet_codec.md R142 with 20_memory.md R64, read through the host's port: after a DEC that succeeds, the host's byte reads of
`RXBUF` and its reads of the record agree, for each of the four one-byte fields. -/
def Obligations.RecordBytesAreTheWireBytes : Prop :=
  ∀ s t : State, exec .dec s = .next t → t.err = 0#3 → (∀ a, a < 48 → (s.rxbuf.read a).isSome) →
    ∀ (r : Reg) (a : Nat), (r, a) ∈ [(Reg.recFlags, 0), (Reg.recStratum, 1), (Reg.recPoll, 2), (Reg.recPrecision, 3)] →
      ∃ b : Byte, perform (.bufRead .rx a) t = .next (t.giveBack (.buf .rx a b)) ∧
        perform (.regRead r) t = .next (t.giveBack (.reg r { width := 8, value := b.toNat }))

/-- The frame of DEC by buffer and byte (20_memory.md R60): it stores to no buffer and writes no register but `STATUS` and the fifteen
record registers (index 11 on). -/
def Obligations.DecFrame : Prop :=
  ∀ s t : State, exec .dec s = .next t →
    (∀ a, t.txbuf.read a = s.txbuf.read a) ∧ (∀ a, t.rxbuf.read a = s.rxbuf.read a) ∧
    (∀ r : Reg, r ≠ .status → r.index < 11 → t.regValue r = s.regValue r) ∧
    t.inbox = s.inbox ∧ t.returned = s.returned

/-! ## CONV -/

/-- 41_time_converter.md R165: CONV, its code, and for every state: the comparison, the results, the flags written, everything else untouched. -/
def Obligations.ConvCommandRule : Prop :=
  decode 0x03#8 = .command .conv ∧
  ∀ s : State, ∃ t, exec .conv s = .next t ∧
    (s.convSec.toNat < 2208988800 → t.err = 4#3 ∧ t.cvalid = false ∧ t.epoch = none ∧ t.subsec = none) ∧
    (2208988800 ≤ s.convSec.toNat →
      t.err = 0#3 ∧ t.cvalid = true ∧ t.epoch.map BitVec.toNat = some (s.convSec.toNat - 2208988800) ∧
      s.convSec.toNat - 2208988800 ≤ 2085978495 ∧ t.subsec = some s.convFrac) ∧
    t.tvalid = s.tvalid ∧ t.rvalid = s.rvalid ∧ unusedField t.status = unusedField s.status ∧
    t = { s with status := t.status, epoch := t.epoch, subsec := t.subsec }

/-- 41_time_converter.md R161, R162: the two arms of `toCalendarTime` are exclusive and cover every input; the fraction plays no part in
the failure. -/
def Obligations.ToCalendarTimeIsTotal : Prop :=
  ∀ s f : Word,
    (toCalendarTime s f = .error .beforeEpoch ↔ s.toNat < 2208988800) ∧
    (2208988800 ≤ s.toNat → ∃ e : Word, toCalendarTime s f = .ok (e, f) ∧ e.toNat = s.toNat - 2208988800)

/-- 41_time_converter.md R171 (a) to (e), with `fromCalendarTime` of R170: the round trips, monotonicity on the 64-bit values, downward
closed failure, and the sum without wrap. -/
def Obligations.ConverterLaws : Prop :=
  (∀ e q : Word, e.toNat ≤ 2085978495 →
    ∃ s f, fromCalendarTime e q = some (s, f) ∧ toCalendarTime s f = .ok (e, q)) ∧
  (∀ s f : Word, 2208988800 ≤ s.toNat →
    ∃ e q, toCalendarTime s f = .ok (e, q) ∧ fromCalendarTime e q = some (s, f)) ∧
  (∀ s1 f1 s2 f2 e1 q1 e2 q2 : Word, (pairValue s1 f1).toNat ≤ (pairValue s2 f2).toNat →
    toCalendarTime s1 f1 = .ok (e1, q1) → toCalendarTime s2 f2 = .ok (e2, q2) →
    (pairValue e1 q1).toNat ≤ (pairValue e2 q2).toNat) ∧
  (∀ s s' f f' : Word, toCalendarTime s f = .error .beforeEpoch → s'.toNat < s.toNat →
    toCalendarTime s' f' = .error .beforeEpoch) ∧
  ∀ s f e q : Word, toCalendarTime s f = .ok (e, q) → e.toNat + 2208988800 = s.toNat

/-- 41_time_converter.md R166, R167: at a true time in era 0 CONV gives the true epoch seconds; at a true time within 2,208,988,800 seconds
after the rollover it fails with `BeforeEpoch` and gives no date. -/
def Obligations.ConvIsRightInEra0 : Prop :=
  (∀ (s : State) (T : Nat), InEra0 T → 2208988800 ≤ T → s.convSec = secondsField T →
    ∃ t, exec .conv s = .next t ∧ t.epoch.map BitVec.toNat = some (T - 2208988800)) ∧
  ∀ (s : State) (T : Nat), 2 ^ 32 ≤ T → T < 2 ^ 32 + 2208988800 → s.convSec = secondsField T →
    ∃ t, exec .conv s = .next t ∧ t.err = 4#3 ∧ t.epoch = none

/-- 10_state.md R28: in every state of the invariant `EPOCH` is below 2^31 when it holds a value, so its two's complement reading is the
same number. -/
def Obligations.EpochReadsTheSameSigned : Prop :=
  ∀ (s : State) (e : Word), Inv s → s.epoch = some e → e.toNat < 2 ^ 31 ∧ e.toInt = (e.toNat : Int)

/-- The frame of CONV by buffer and byte (20_memory.md R60): it reaches neither buffer and writes no register but `STATUS`, `EPOCH` and
`SUBSEC`. -/
def Obligations.ConvFrame : Prop :=
  ∀ s t : State, exec .conv s = .next t →
    (∀ a, t.txbuf.read a = s.txbuf.read a) ∧ (∀ a, t.rxbuf.read a = s.rxbuf.read a) ∧
    (∀ r : Reg, r ≠ .status → r ≠ .epoch → r ≠ .subsec → t.regValue r = s.regValue r) ∧
    t.inbox = s.inbox ∧ t.returned = s.returned ∧ t.draws = s.draws

/-! ## Errors, flags and whole-machine rules -/

/-- 60_exceptions.md R216: what raising an error does, and that nothing else changes. -/
def Obligations.RaisedErrorEffect : Prop :=
  (∀ (d : DecodeError) (s : State),
    (raise (.decode d) s).err = errorCode (.decode d) ∧ (raise (.decode d) s).rvalid = false ∧
    (∀ r : Reg, 11 ≤ r.index → (raise (.decode d) s).regValue r = none) ∧
    (raise (.decode d) s).tvalid = s.tvalid ∧ (raise (.decode d) s).cvalid = s.cvalid ∧
    unusedField (raise (.decode d) s).status = unusedField s.status ∧
    raise (.decode d) s = { s with status := (raise (.decode d) s).status, record := RecordRegs.noValue }) ∧
  ∀ (c : ConversionError) (s : State),
    (raise (.conversion c) s).err = 4#3 ∧ (raise (.conversion c) s).cvalid = false ∧
    (raise (.conversion c) s).tvalid = s.tvalid ∧ (raise (.conversion c) s).rvalid = s.rvalid ∧
    unusedField (raise (.conversion c) s).status = unusedField s.status ∧
    raise (.conversion c) s = { s with status := (raise (.conversion c) s).status, epoch := none, subsec := none }

/-- 60_exceptions.md R217: errors are precise: a command that ends with an error leaves the block as it was but for `STATUS.ERR`, the
command's own valid flag and its own earlier results. -/
def Obligations.ErrorsArePrecise : Prop :=
  ∀ (i : Instr) (s t : State), exec i s = .next t → t.err ≠ 0#3 →
    (i = .dec ∧ SameBlock t (raise (.decode .shortBuffer) s |>.withStatus (setErr t.err (setRvalid false s.status)))) ∨
    (i = .conv ∧ SameBlock t (raise (.conversion .beforeEpoch) s))

/-- 60_exceptions.md R218, R220: whatever the state, an error in `STATUS` included, every command completes. -/
def Obligations.EveryCommandCompletes : Prop :=
  ∀ (i : Instr) (s : State), ∃ t, exec i s = .next t

/-- 10_state.md R30: which command writes which flag, what reset writes, and that nothing else writes `STATUS`. -/
def Obligations.FlagsAreWrittenByTheirCommand : Prop :=
  (∀ s t : State, exec .enc s = .next t →
    t.err = 0#3 ∧ t.tvalid = true ∧ t.rvalid = s.rvalid ∧ t.cvalid = s.cvalid) ∧
  (∀ s t : State, exec .dec s = .next t →
    (t.err = 0#3 ∧ t.rvalid = true ∨ t.err.toNat ∈ [1, 2, 3] ∧ t.rvalid = false) ∧
    t.tvalid = s.tvalid ∧ t.cvalid = s.cvalid) ∧
  (∀ s t : State, exec .conv s = .next t →
    (t.err = 0#3 ∧ t.cvalid = true ∨ t.err = 4#3 ∧ t.cvalid = false) ∧
    t.tvalid = s.tvalid ∧ t.rvalid = s.rvalid) ∧
  (∀ (s t : State) (rest : List Event), s.inbox = .reset :: rest → step s = .next t → t.status = 0x00#8) ∧
  ∀ s t : State, step s = .next t → t.status ≠ s.status →
    ∃ rest, s.inbox = .reset :: rest ∨ ∃ d, s.inbox = .host (.regWrite .cmd d) :: rest

/-- 10_state.md R21, the "written by" column, R37 and R78: of all steps, only a `CMD` write or a reset changes `TXBUF`, the record, `EPOCH`
or `SUBSEC`, and only ENC, DEC or CONV in turn; only a `BufWrite` or a reset changes `RXBUF`. -/
def Obligations.OnlyTheNamedWritersWrite : Prop :=
  ∀ s t : State, step s = .next t →
    (t.txbuf ≠ s.txbuf → ∃ rest, s.inbox = .reset :: rest ∨
      s.inbox = .host (cmdTxn { width := 8, value := 1 }) :: rest) ∧
    (t.record ≠ s.record → ∃ rest, s.inbox = .reset :: rest ∨
      s.inbox = .host (cmdTxn { width := 8, value := 2 }) :: rest) ∧
    ((t.epoch ≠ s.epoch ∨ t.subsec ≠ s.subsec) → ∃ rest, s.inbox = .reset :: rest ∨
      s.inbox = .host (cmdTxn { width := 8, value := 3 }) :: rest) ∧
    (t.rxbuf ≠ s.rxbuf → ∃ rest, s.inbox = .reset :: rest ∨ ∃ a d, s.inbox = .host (.bufWrite .rx a d) :: rest) ∧
    ∀ r : Reg, r.access = .rw → t.regValue r ≠ s.regValue r →
      ∃ rest, s.inbox = .reset :: rest ∨ ∃ d, s.inbox = .host (.regWrite r d) :: rest

/-- 10_state.md R39: no hidden state: a command's results are a function of the operands its rule names and of nothing else.  What an
`RXBUF` byte holds for DEC is what it shows, a free value where the host wrote none. -/
def Obligations.NoHiddenState : Prop :=
  ∀ s s' t t' : State,
    (exec .enc s = .next t → exec .enc s' = .next t' → s.cfgVn = s'.cfgVn → s.cfgTxen = s'.cfgTxen →
      s.txSec = s'.txSec → s.txFrac = s'.txFrac →
      (∀ a, a < 48 → t.txbuf.read a = t'.txbuf.read a) ∧ t.err = t'.err ∧ t.tvalid = t'.tvalid) ∧
    (exec .dec s = .next t → exec .dec s' = .next t' → s.rxlen = s'.rxlen → (∀ a, a < 48 → s.rxByte a = s'.rxByte a) →
      t.record = t'.record ∧ t.err = t'.err ∧ t.rvalid = t'.rvalid) ∧
    (exec .conv s = .next t → exec .conv s' = .next t' → s.convSec = s'.convSec → s.convFrac = s'.convFrac →
      t.epoch = t'.epoch ∧ t.subsec = t'.subsec ∧ t.err = t'.err ∧ t.cvalid = t'.cvalid)

/-- 20_memory.md R71: a command repeated with unchanged operands leaves the block exactly as the first run left it.  The premise on
`RXBUF` is what makes DEC's operands unchanged: a byte the host has not written is drawn afresh by each command
(93_implementation_defined.md U2). -/
def Obligations.RepeatedCommandsChangeNothing : Prop :=
  ∀ (i : Instr) (s t u : State), s.txbuf.wf = true →
    (i = .dec → s.rxlen.toNat < 48 ∨ ∀ a, a < 48 → (s.rxbuf.read a).isSome) →
    exec i s = .next t → exec i t = .next u → SameBlock u t

/-- 10_state.md R29: the `STATUS` word is its fields at their places, and bits 7:6, which read as 0, add nothing. -/
def Obligations.StatusWordIsItsFields : Prop :=
  ∀ s : State, unusedField s.status = 0#2 →
    s.status.toNat = s.err.toNat + 8 * s.tvalid.toNat + 16 * s.rvalid.toNat + 32 * s.cvalid.toNat

/-! ## The invariant -/

/-- The invariant holds at reset (10_state.md R42). -/
def Obligations.InvariantHoldsAtReset : Prop := Inv State.reset

/-- The invariant is kept by every step that has a next state: the valid flags say exactly which results hold values (10_state.md R38),
`ERR` is one of the five codes and bits 7:6 of `STATUS` are 0 (R29), a held record is of server mode with a stratum that is not 0 (R32),
`EPOCH` is at most 2,085,978,495 (R28), a held request is a request (40_packet_codec.md R132), and both buffers keep their canonical form. -/
def Obligations.EveryStepKeepsTheInvariant : Prop :=
  ∀ s t : State, Inv s → step s = .next t → Inv t

/-! ## The host's port -/

/-- 10_state.md R38: in every state of the invariant the valid flags say exactly which results the host can read; a read of anything else is
refused and gives no value. -/
def Obligations.ValidFlagsSayWhatCanBeRead : Prop :=
  ∀ s : State, Inv s →
    (∀ a, a < 48 → (s.tvalid = true → ∃ t, perform (.bufRead .tx a) s = .next t) ∧
      (s.tvalid = false → perform (.bufRead .tx a) s = .refused (.readNoValueByte a))) ∧
    (∀ r : Reg, 11 ≤ r.index → (s.rvalid = true → ∃ t, perform (.regRead r) s = .next t) ∧
      (s.rvalid = false → perform (.regRead r) s = .refused (.readNoValue r))) ∧
    ∀ r : Reg, r = .epoch ∨ r = .subsec → (s.cvalid = true → ∃ t, perform (.regRead r) s = .next t) ∧
      (s.cvalid = false → perform (.regRead r) s = .refused (.readNoValue r))

/-- 10_state.md R43: the access rights: every access the table allows completes (a read, when the register or byte holds a value), and
every other access of a register or of a buffer's addresses is refused.  Data as a width and a value, and which refusal names an access
wrong in two ways, are the model's choice (assumption log 8); so is that a read of novalue stands as `none` (assumption log 3). -/
def Obligations.AccessRights : Prop :=
  ∀ s : State,
    (∀ (r : Reg) (d : Data), r.access ≠ .wo → s.regValue r = some d →
      perform (.regRead r) s = .next (s.giveBack (.reg r d))) ∧
    (∀ (r : Reg) (d : Data), r.access = .rw → d.fits r.width = true → ∃ t, perform (.regWrite r d) s = .next t) ∧
    (∀ i : Instr, ∃ t, perform (.regWrite .cmd { width := 8, value := (encode i).toNat }) s = .next t) ∧
    (∀ a b, a < 48 → s.txbuf.read a = some b →
      perform (.bufRead .tx a) s = .next (s.giveBack (.buf .tx a b))) ∧
    (∀ a, a < 48 → ∃ t, perform (.bufRead .rx a) s = .next t) ∧
    (∀ a d, a < 48 → d.fits 8 = true → ∃ t, perform (.bufWrite .rx a d) s = .next t) ∧
    (∀ (r : Reg) (d : Data), r.access = .ro → perform (.regWrite r d) s = .refused (.writeReadOnly r)) ∧
    (∀ a d, a < 48 → perform (.bufWrite .tx a d) s = .refused (.writeTransmitBuffer a)) ∧
    perform (.regRead .cmd) s = .refused (.readWriteOnly .cmd) ∧
    (∀ (r : Reg) (d : Data), r.access ≠ .ro → d.fits r.width = false →
      perform (.regWrite r d) s = .refused (.wrongWidth r d)) ∧
    (∀ a d, a < 48 → d.fits 8 = false → perform (.bufWrite .rx a d) s = .refused (.wrongByteWidth a d)) ∧
    (∀ r : Reg, r.access ≠ .wo → s.regValue r = none → perform (.regRead r) s = .refused (.readNoValue r)) ∧
    (∀ a, a < 48 → s.txbuf.read a = none → perform (.bufRead .tx a) s = .refused (.readNoValueByte a)) ∧
    ∀ c : Byte, c.toNat = 0 ∨ 4 ≤ c.toNat →
      perform (.regWrite .cmd { width := 8, value := c.toNat }) s = .refused (.reservedCommand c)

/-- 42_host_sequence.md R200: the host's contract is exactly what the block can do: a step on an event has a next state if and only if the
contract allows the event. -/
def Obligations.StepCompletesExactlyOnLegalEvents : Prop :=
  ∀ (s : State) (e : Event) (rest : List Event), s.inbox = e :: rest →
    ((∃ t, step s = .next t) ↔ e.legal (s.withInbox rest))

/-- 20_memory.md R71, R75: a host write changes only the cell written, and a read that follows gives what was written. -/
def Obligations.HostWritesOneCell : Prop :=
  (∀ (s : State) (r : Reg) (d : Data), r.access = .rw → d.fits r.width = true →
    ∃ t, perform (.regWrite r d) s = .next t ∧ t.regValue r = some d ∧
      (∀ r', r' ≠ r → t.regValue r' = s.regValue r') ∧ t.txbuf = s.txbuf ∧ t.rxbuf = s.rxbuf) ∧
  ∀ (s : State) (a : Nat) (b : Byte), a < 48 →
    ∃ t, perform (.bufWrite .rx a { width := 8, value := b.toNat }) s = .next t ∧ t.rxbuf.read a = some b ∧
      (∀ x, x ≠ a → t.rxbuf.read x = s.rxbuf.read x) ∧ t = { s with rxbuf := t.rxbuf }

/-- 20_memory.md R71: a host read of a register or a buffer byte changes no state of the block and gives back one value: the register's,
or the byte's. -/
def Obligations.HostReadsChangeNothing : Prop :=
  (∀ (s t : State) (r : Reg), perform (.regRead r) s = .next t →
    SameBlock t s ∧ ∃ d, s.regValue r = some d ∧ d.fits r.width = true ∧ t.returned = .reg r d :: s.returned) ∧
  ∀ (s t : State) (sp : Space) (a : Nat), perform (.bufRead sp a) s = .next t →
    SameBlock t s ∧ ∃ b, t.returned = .buf sp a b :: s.returned ∧
      (sp = .tx → s.txbuf.read a = some b) ∧ ∀ b', sp = .rx → s.rxbuf.read a = some b' → b = b'

/-- 20_memory.md R60, R74: no buffer has an address from 48 on, and a second host is refused.  That an access there is a fault is read
from R60 (assumption log 7); that it is one whatever the access right and the data's width is the model's choice (assumption log 8). -/
def Obligations.NoOtherAddressAndNoSecondHost : Prop :=
  ∀ s : State,
    (∀ sp a, 48 ≤ a → perform (.bufRead sp a) s = .fault (.noSuchAddress sp a)) ∧
    (∀ sp a d, 48 ≤ a → perform (.bufWrite sp a d) s = .fault (.noSuchAddress sp a)) ∧
    ∀ (t : Txn) (rest : List Event), s.inbox = .secondHost t :: rest → step s = .refused (.secondHost t)

/-- 30_encoding.md R98, R99: the two numeric views of a byte and of a 16.16 pattern (as a numerator over 2^16), with their ranges; where
the top bit is clear the views agree, so a root delay or dispersion then has one value whichever view the open parameters of assumption
log 10 select. -/
def Obligations.NumericViews : Prop :=
  (∀ p : Byte, (numericView false p = p.toNat ∧ 0 ≤ numericView false p ∧ numericView false p ≤ 255) ∧
    (numericView true p = (if p.toNat < 128 then (p.toNat : Int) else p.toNat - 256) ∧ -128 ≤ numericView true p ∧
      numericView true p ≤ 127)) ∧
  ∀ r : Word, (numericView false r = (fixedInteger r).toNat * 65536 + (fixedFraction r).toNat ∧
      0 ≤ numericView false r ∧ numericView false r ≤ 65535 * 65536 + 65535) ∧
    (numericView true r = (r.toNat : Int) - 2 ^ 32 * (r.getLsbD 31).toNat ∧
      -32768 * 65536 ≤ numericView true r ∧ numericView true r ≤ 32767 * 65536 + 65535) ∧
    (r.toNat < 2 ^ 31 → rootDelayNumerator r = r.toNat ∧ rootDispNumerator r = r.toNat)

/-! ## The host's sequence (outside the block, 42_host_sequence.md) -/

/-- 42_host_sequence.md R188, R200: the bytes the host reads, to send them in AwaitingResponse, are the 48 bytes of the request it
configured; Requesting always leads to AwaitingResponse, whatever the block held, and sends nothing yet.  With no version configured the
host leaves `CFG_VN` as it stands, which is the model's choice (assumption log 14). -/
def Obligations.RequestingReadsTheConfiguredRequest : Prop :=
  ∀ s : SyncState, s.phase = .requesting →
    ∃ t, syncStep s = .next t ∧ t.phase = .awaitingResponse ∧
      t.request = (match s.cfg.transmit with
        | some ts => encodeRequest (s.cfg.version.getD s.block.cfgVn) 1#1 ts.seconds ts.fraction
        | none => encodeRequest (s.cfg.version.getD s.block.cfgVn) 0#1 0#32 0#32) ∧
      t.sent = s.sent ∧ t.block.err = 0#3 ∧ t.block.tvalid = true

/-- 42_host_sequence.md R182, R189: a datagram from the address and port the request went to is the response: it goes to `RXLEN`,
saturated at 65535, and its first 48 bytes to `RXBUF`; the endpoint is released.  That it is released in this step is the model's choice
(assumption log 20). -/
def Obligations.ResponseGoesToTheReceiveBuffer : Prop :=
  ∀ (s : SyncState) (localPort : Nat) (payload : List Byte) (rest : List NetEvent), s.phase = .awaitingResponse →
    s.endpoint = some (.waiting localPort) → s.net = .datagram s.cfg.serverAddress s.cfg.port payload :: rest →
    ∃ t, syncStep s = .next t ∧ t.phase = .validating ∧ t.endpoint = none ∧ t.net = rest ∧
      t.block.rxlen.toNat = min payload.length 65535 ∧
      (∀ a, a < 48 → a < payload.length → t.block.rxbuf.read a = payload[a]?) ∧
      (∀ a, 48 ≤ a ∨ payload.length ≤ a → t.block.rxbuf.read a = s.block.rxbuf.read a) ∧
      t.block.txbuf = s.block.txbuf ∧ t.block.record = s.block.record

/-- 42_host_sequence.md R182: a datagram from another address or port does not end the wait. -/
def Obligations.ForeignDatagramsDoNotEndTheWait : Prop :=
  ∀ (s : SyncState) (localPort address port : Nat) (payload : List Byte) (rest : List NetEvent),
    s.phase = .awaitingResponse → s.endpoint = some (.waiting localPort) →
    s.net = .datagram address port payload :: rest → address ≠ s.cfg.serverAddress ∨ port ≠ s.cfg.port →
    syncStep s = .next { s with net := rest }

/-- 42_host_sequence.md R184: the endpoint is released on every exit path: the balance of acquired and released endpoints is kept by every
step, and no endpoint is in hand outside AwaitingResponse, so none when the call has ended.  That none is in hand once a response has been
received is the model's choice of the moment of release (assumption log 20). -/
def Obligations.EndpointsAreReleased : Prop :=
  (∀ cfg b routes sends net, EndpointOk (SyncState.start cfg b routes sends net)) ∧
  ∀ s t : SyncState, EndpointOk s → syncStep s = .next t → EndpointOk t

/-- 42_host_sequence.md R195 (property S-6): a transport that never responds makes exactly `maxRetries + 1` attempts, from any block, and then the
call ends with a timeout, every endpoint released.  It never responds when the path is found, the datagrams are sent, and what happens
during the waits, deadlines and datagrams from elsewhere, holds no datagram from the server and no receive failure; that an input list at its
end means "path found", "sent" and "no response arrives" is the model's choice (assumption log 14). -/
def Obligations.NeverRespondingTransportTimesOut : Prop :=
  ∀ (cfg : SyncConfig) (b : State) (routes sends : List Bool) (net : List NetEvent), false ∉ routes → false ∉ sends →
    (∀ e ∈ net, e.isResponse cfg = false ∧ e ≠ .ioFailure) →
    ∃ n t, syncRun n (SyncState.start cfg b routes sends net) = .next t ∧
      t.phase = .doneFailure .timeout ∧ t.sent.length = cfg.maxRetries + 1 ∧ t.acquired = cfg.maxRetries + 1 ∧
      t.released = cfg.maxRetries + 1 ∧ t.endpoint = none

/-- 42_host_sequence.md R195, R197: once a response is being validated or converted, nothing is sent again and no retry is used in that step, and
the call goes on to Converting or ends; so no structural failure is retried, a kiss-of-death among them. -/
def Obligations.StructuralFailuresAreNotRetried : Prop :=
  ∀ s t : SyncState, s.phase = .validating ∨ s.phase = .converting → syncStep s = .next t →
    t.sent = s.sent ∧ t.retries = s.retries ∧ t.acquired = s.acquired ∧
    (t.phase.isDone = true ∨ s.phase = .validating ∧ t.phase = .converting)

/-- 42_host_sequence.md R190, R197: a response DEC rejects ends the call with the error DEC reports. -/
def Obligations.RejectedResponseEndsTheCall : Prop :=
  ∀ (s : SyncState) (e : DecodeError), s.phase = .validating →
    decodeResponse s.block.rxlen s.block.rxByte = .error e →
    ∃ t, syncStep s = .next t ∧ t.phase = .doneFailure (.decode e) ∧ t.sent = s.sent

/-- 42_host_sequence.md R191 to R194, with 40_packet_codec.md R142 and 41_time_converter.md R161: an accepted response of stratum 1 to 15 whose
transmit seconds are at least 2,208,988,800 takes two steps to Done(success), with the converted transmit timestamp and the record's stratum
and precision. -/
def Obligations.AcceptedResponseSucceeds : Prop :=
  ∀ s : SyncState, s.phase = .validating → DecAccepts s.block → (s.block.rxByte 1).toNat ≤ 15 →
    2208988800 ≤ bigEndian s.block.rxByte 40 →
    ∃ t, syncRun 2 s = .next t ∧
      t.phase = .doneSuccess
        { epochSeconds := bigEndian s.block.rxByte 40 - 2208988800
          subSecondFraction := bigEndian s.block.rxByte 44
          stratum := (s.block.rxByte 1).toNat
          precision := (s.block.rxByte 3).toNat } ∧
      t.sent = s.sent

/-- 42_host_sequence.md R191, with the names of R192: the sanity checks, in order: a zero transmit pair, then a stratum above 15, end the
call with their own failures; a record that passes both goes on to be converted. -/
def Obligations.SanityChecksInOrder : Prop :=
  ∀ s : SyncState, s.phase = .validating → DecAccepts s.block →
    ((bigEndian s.block.rxByte 40 = 0 ∧ bigEndian s.block.rxByte 44 = 0) →
      ∃ t, syncStep s = .next t ∧ t.phase = .doneFailure .zeroTransmit) ∧
    (¬ (bigEndian s.block.rxByte 40 = 0 ∧ bigEndian s.block.rxByte 44 = 0) → 16 ≤ (s.block.rxByte 1).toNat →
      ∃ t, syncStep s = .next t ∧ t.phase = .doneFailure .stratumOutOfRange) ∧
    (¬ (bigEndian s.block.rxByte 40 = 0 ∧ bigEndian s.block.rxByte 44 = 0) → (s.block.rxByte 1).toNat ≤ 15 →
      ∃ t, syncStep s = .next t ∧ t.phase = .converting)

/-- 42_host_sequence.md R183: the local transmit instant is recorded before the receive instant, by a monotonic clock, so it is not later.
`InstantsOk` holds when a call starts and after every step from a state where it holds, and it says that a call that validates or converts
a response has both instants, in that order. -/
def Obligations.LocalInstantsAreOrdered : Prop :=
  (∀ cfg b routes sends net, InstantsOk (SyncState.start cfg b routes sends net)) ∧
  (∀ s t : SyncState, InstantsOk s → syncStep s = .next t → InstantsOk t) ∧
  ∀ s : SyncState, InstantsOk s → s.phase = .validating ∨ s.phase = .converting →
    ∃ t r, s.transmitInstant = some t ∧ s.receiveInstant = some r ∧ t ≤ r

/-- 42_host_sequence.md R181, R182, R195: a failure to send, a failure to receive and an elapsed deadline release the endpoint; while
retries are left the call stays in AwaitingResponse with one more of them used, else it ends with the failure.  A failure to send sends
nothing. -/
def Obligations.TransientFailuresAreRetried : Prop :=
  ∀ (s : SyncState) (localPort : Nat) (e : SyncError), s.phase = .awaitingResponse →
    (s.endpoint = some (.opened localPort) ∧ s.sends.head? = some false ∧ e = .io ∨
      s.endpoint = some (.waiting localPort) ∧ s.net.head? = some .ioFailure ∧ e = .io ∨
      s.endpoint = some (.waiting localPort) ∧ s.net.head? = some .deadline ∧ e = .timeout) →
    ∃ t, syncStep s = .next t ∧ t.endpoint = none ∧ t.released = s.released + 1 ∧ t.acquired = s.acquired ∧
      t.sent = s.sent ∧ t.block = s.block ∧
      (s.retries < s.cfg.maxRetries → t.phase = .awaitingResponse ∧ t.retries = s.retries + 1) ∧
      (s.cfg.maxRetries ≤ s.retries → t.phase = .doneFailure e)

/-- 42_host_sequence.md R182, R183: when the lower layer sends, the request bytes go out as one datagram, to the address and port of the
configuration and from the endpoint's local port, the local transmit instant is recorded, and the call waits; the block is idle. -/
def Obligations.RequestGoesOutAsOneDatagram : Prop :=
  ∀ (s : SyncState) (localPort : Nat), s.phase = .awaitingResponse → s.endpoint = some (.opened localPort) →
    s.sends.head? ≠ some false →
    ∃ t, syncStep s = .next t ∧
      t.sent = { localPort := localPort, address := s.cfg.serverAddress, port := s.cfg.port, payload := s.request } :: s.sent ∧
      t.endpoint = some (.waiting localPort) ∧ t.transmitInstant = some (localClock s.clockReads) ∧
      t.phase = .awaitingResponse ∧ t.request = s.request ∧ t.retries = s.retries ∧ t.block = s.block
end

