-- ==== Sys2Proof/Laws/Flags.lean ====
section
/-!
SUPPORT. Laws/Flags: what each write of a `STATUS` field leaves in each field.
-/

namespace Sys2Proof.Machine

@[simp] theorem errField_setErr : ∀ (c : BitVec 3) (st : BitVec 8), errField (setErr c st) = c := by decide
@[simp] theorem tvalidField_setErr : ∀ (c : BitVec 3) (st : BitVec 8), tvalidField (setErr c st) = tvalidField st := by
  decide
@[simp] theorem rvalidField_setErr : ∀ (c : BitVec 3) (st : BitVec 8), rvalidField (setErr c st) = rvalidField st := by
  decide
@[simp] theorem cvalidField_setErr : ∀ (c : BitVec 3) (st : BitVec 8), cvalidField (setErr c st) = cvalidField st := by
  decide
@[simp] theorem unusedField_setErr : ∀ (c : BitVec 3) (st : BitVec 8), unusedField (setErr c st) = unusedField st := by
  decide

@[simp] theorem errField_setTvalid : ∀ (b : Bool) (st : BitVec 8), errField (setTvalid b st) = errField st := by decide
@[simp] theorem tvalidField_setTvalid : ∀ (b : Bool) (st : BitVec 8), tvalidField (setTvalid b st) = b := by decide
@[simp] theorem rvalidField_setTvalid : ∀ (b : Bool) (st : BitVec 8), rvalidField (setTvalid b st) = rvalidField st := by
  decide
@[simp] theorem cvalidField_setTvalid : ∀ (b : Bool) (st : BitVec 8), cvalidField (setTvalid b st) = cvalidField st := by
  decide
@[simp] theorem unusedField_setTvalid : ∀ (b : Bool) (st : BitVec 8), unusedField (setTvalid b st) = unusedField st := by
  decide

@[simp] theorem errField_setRvalid : ∀ (b : Bool) (st : BitVec 8), errField (setRvalid b st) = errField st := by decide
@[simp] theorem tvalidField_setRvalid : ∀ (b : Bool) (st : BitVec 8), tvalidField (setRvalid b st) = tvalidField st := by
  decide
@[simp] theorem rvalidField_setRvalid : ∀ (b : Bool) (st : BitVec 8), rvalidField (setRvalid b st) = b := by decide
@[simp] theorem cvalidField_setRvalid : ∀ (b : Bool) (st : BitVec 8), cvalidField (setRvalid b st) = cvalidField st := by
  decide
@[simp] theorem unusedField_setRvalid : ∀ (b : Bool) (st : BitVec 8), unusedField (setRvalid b st) = unusedField st := by
  decide

@[simp] theorem errField_setCvalid : ∀ (b : Bool) (st : BitVec 8), errField (setCvalid b st) = errField st := by decide
@[simp] theorem tvalidField_setCvalid : ∀ (b : Bool) (st : BitVec 8), tvalidField (setCvalid b st) = tvalidField st := by
  decide
@[simp] theorem rvalidField_setCvalid : ∀ (b : Bool) (st : BitVec 8), rvalidField (setCvalid b st) = rvalidField st := by
  decide
@[simp] theorem cvalidField_setCvalid : ∀ (b : Bool) (st : BitVec 8), cvalidField (setCvalid b st) = b := by decide
@[simp] theorem unusedField_setCvalid : ∀ (b : Bool) (st : BitVec 8), unusedField (setCvalid b st) = unusedField st := by
  decide

/-- A status word is its fields, put side by side (10_state.md R29). -/
theorem status_fields : ∀ st : BitVec 8,
    st = unusedField st ++ BitVec.ofBool (cvalidField st) ++ BitVec.ofBool (rvalidField st)
      ++ BitVec.ofBool (tvalidField st) ++ errField st := by decide

/-- Two status words with equal fields are equal. -/
theorem status_ext (a b : BitVec 8) (he : errField a = errField b) (ht : tvalidField a = tvalidField b)
    (hr : rvalidField a = rvalidField b) (hc : cvalidField a = cvalidField b) (hu : unusedField a = unusedField b) :
    a = b := by
  rw [status_fields a, status_fields b, he, ht, hr, hc, hu]

/-- No error has the code of success (30_encoding.md R112). -/
theorem errorCode_ne_success (e : BlockError) : errorCode e ≠ successCode := by
  rcases e with (_ | _ | _) | ⟨⟨⟩⟩ <;> decide

/-- The codes are 1 to 4 (30_encoding.md R112). -/
theorem errorCode_le (e : BlockError) : (errorCode e).toNat ≤ 4 := by rcases e with (_ | _ | _) | ⟨⟨⟩⟩ <;> decide

end Sys2Proof.Machine
end

