-- ==== Sys2Proof/Laws/State.lean ====
section
/-!
SUPPORT. Laws/State: what each named update leaves in each field of the state, so that no proof unfolds one.
-/

namespace Sys2Proof.Machine

/-! ### withStatus -/

section

variable (s : State) (v : BitVec 8)

@[simp] theorem withStatus_status : (s.withStatus v).status = v := rfl
@[simp] theorem withStatus_cfgVn : (s.withStatus v).cfgVn = s.cfgVn := rfl
@[simp] theorem withStatus_cfgTxen : (s.withStatus v).cfgTxen = s.cfgTxen := rfl
@[simp] theorem withStatus_txSec : (s.withStatus v).txSec = s.txSec := rfl
@[simp] theorem withStatus_txFrac : (s.withStatus v).txFrac = s.txFrac := rfl
@[simp] theorem withStatus_txbuf : (s.withStatus v).txbuf = s.txbuf := rfl
@[simp] theorem withStatus_rxbuf : (s.withStatus v).rxbuf = s.rxbuf := rfl
@[simp] theorem withStatus_rxlen : (s.withStatus v).rxlen = s.rxlen := rfl
@[simp] theorem withStatus_record : (s.withStatus v).record = s.record := rfl
@[simp] theorem withStatus_convSec : (s.withStatus v).convSec = s.convSec := rfl
@[simp] theorem withStatus_convFrac : (s.withStatus v).convFrac = s.convFrac := rfl
@[simp] theorem withStatus_epoch : (s.withStatus v).epoch = s.epoch := rfl
@[simp] theorem withStatus_subsec : (s.withStatus v).subsec = s.subsec := rfl
@[simp] theorem withStatus_inbox : (s.withStatus v).inbox = s.inbox := rfl
@[simp] theorem withStatus_returned : (s.withStatus v).returned = s.returned := rfl
@[simp] theorem withStatus_draws : (s.withStatus v).draws = s.draws := rfl

end

/-! ### withTxbuf -/

section

variable (s : State) (m : Memory)

@[simp] theorem withTxbuf_status : (s.withTxbuf m).status = s.status := rfl
@[simp] theorem withTxbuf_cfgVn : (s.withTxbuf m).cfgVn = s.cfgVn := rfl
@[simp] theorem withTxbuf_cfgTxen : (s.withTxbuf m).cfgTxen = s.cfgTxen := rfl
@[simp] theorem withTxbuf_txSec : (s.withTxbuf m).txSec = s.txSec := rfl
@[simp] theorem withTxbuf_txFrac : (s.withTxbuf m).txFrac = s.txFrac := rfl
@[simp] theorem withTxbuf_txbuf : (s.withTxbuf m).txbuf = m := rfl
@[simp] theorem withTxbuf_rxbuf : (s.withTxbuf m).rxbuf = s.rxbuf := rfl
@[simp] theorem withTxbuf_rxlen : (s.withTxbuf m).rxlen = s.rxlen := rfl
@[simp] theorem withTxbuf_record : (s.withTxbuf m).record = s.record := rfl
@[simp] theorem withTxbuf_convSec : (s.withTxbuf m).convSec = s.convSec := rfl
@[simp] theorem withTxbuf_convFrac : (s.withTxbuf m).convFrac = s.convFrac := rfl
@[simp] theorem withTxbuf_epoch : (s.withTxbuf m).epoch = s.epoch := rfl
@[simp] theorem withTxbuf_subsec : (s.withTxbuf m).subsec = s.subsec := rfl
@[simp] theorem withTxbuf_inbox : (s.withTxbuf m).inbox = s.inbox := rfl
@[simp] theorem withTxbuf_returned : (s.withTxbuf m).returned = s.returned := rfl
@[simp] theorem withTxbuf_draws : (s.withTxbuf m).draws = s.draws := rfl

end

/-! ### withRxbuf -/

section

variable (s : State) (m : Memory)

@[simp] theorem withRxbuf_status : (s.withRxbuf m).status = s.status := rfl
@[simp] theorem withRxbuf_cfgVn : (s.withRxbuf m).cfgVn = s.cfgVn := rfl
@[simp] theorem withRxbuf_cfgTxen : (s.withRxbuf m).cfgTxen = s.cfgTxen := rfl
@[simp] theorem withRxbuf_txSec : (s.withRxbuf m).txSec = s.txSec := rfl
@[simp] theorem withRxbuf_txFrac : (s.withRxbuf m).txFrac = s.txFrac := rfl
@[simp] theorem withRxbuf_txbuf : (s.withRxbuf m).txbuf = s.txbuf := rfl
@[simp] theorem withRxbuf_rxbuf : (s.withRxbuf m).rxbuf = m := rfl
@[simp] theorem withRxbuf_rxlen : (s.withRxbuf m).rxlen = s.rxlen := rfl
@[simp] theorem withRxbuf_record : (s.withRxbuf m).record = s.record := rfl
@[simp] theorem withRxbuf_convSec : (s.withRxbuf m).convSec = s.convSec := rfl
@[simp] theorem withRxbuf_convFrac : (s.withRxbuf m).convFrac = s.convFrac := rfl
@[simp] theorem withRxbuf_epoch : (s.withRxbuf m).epoch = s.epoch := rfl
@[simp] theorem withRxbuf_subsec : (s.withRxbuf m).subsec = s.subsec := rfl
@[simp] theorem withRxbuf_inbox : (s.withRxbuf m).inbox = s.inbox := rfl
@[simp] theorem withRxbuf_returned : (s.withRxbuf m).returned = s.returned := rfl
@[simp] theorem withRxbuf_draws : (s.withRxbuf m).draws = s.draws := rfl

end

/-! ### withRecord -/

section

variable (s : State) (r : RecordRegs)

@[simp] theorem withRecord_status : (s.withRecord r).status = s.status := rfl
@[simp] theorem withRecord_cfgVn : (s.withRecord r).cfgVn = s.cfgVn := rfl
@[simp] theorem withRecord_cfgTxen : (s.withRecord r).cfgTxen = s.cfgTxen := rfl
@[simp] theorem withRecord_txSec : (s.withRecord r).txSec = s.txSec := rfl
@[simp] theorem withRecord_txFrac : (s.withRecord r).txFrac = s.txFrac := rfl
@[simp] theorem withRecord_txbuf : (s.withRecord r).txbuf = s.txbuf := rfl
@[simp] theorem withRecord_rxbuf : (s.withRecord r).rxbuf = s.rxbuf := rfl
@[simp] theorem withRecord_rxlen : (s.withRecord r).rxlen = s.rxlen := rfl
@[simp] theorem withRecord_record : (s.withRecord r).record = r := rfl
@[simp] theorem withRecord_convSec : (s.withRecord r).convSec = s.convSec := rfl
@[simp] theorem withRecord_convFrac : (s.withRecord r).convFrac = s.convFrac := rfl
@[simp] theorem withRecord_epoch : (s.withRecord r).epoch = s.epoch := rfl
@[simp] theorem withRecord_subsec : (s.withRecord r).subsec = s.subsec := rfl
@[simp] theorem withRecord_inbox : (s.withRecord r).inbox = s.inbox := rfl
@[simp] theorem withRecord_returned : (s.withRecord r).returned = s.returned := rfl
@[simp] theorem withRecord_draws : (s.withRecord r).draws = s.draws := rfl

end

/-! ### withCalendar -/

section

variable (s : State) (e q : Option Word)

@[simp] theorem withCalendar_status : (s.withCalendar e q).status = s.status := rfl
@[simp] theorem withCalendar_cfgVn : (s.withCalendar e q).cfgVn = s.cfgVn := rfl
@[simp] theorem withCalendar_cfgTxen : (s.withCalendar e q).cfgTxen = s.cfgTxen := rfl
@[simp] theorem withCalendar_txSec : (s.withCalendar e q).txSec = s.txSec := rfl
@[simp] theorem withCalendar_txFrac : (s.withCalendar e q).txFrac = s.txFrac := rfl
@[simp] theorem withCalendar_txbuf : (s.withCalendar e q).txbuf = s.txbuf := rfl
@[simp] theorem withCalendar_rxbuf : (s.withCalendar e q).rxbuf = s.rxbuf := rfl
@[simp] theorem withCalendar_rxlen : (s.withCalendar e q).rxlen = s.rxlen := rfl
@[simp] theorem withCalendar_record : (s.withCalendar e q).record = s.record := rfl
@[simp] theorem withCalendar_convSec : (s.withCalendar e q).convSec = s.convSec := rfl
@[simp] theorem withCalendar_convFrac : (s.withCalendar e q).convFrac = s.convFrac := rfl
@[simp] theorem withCalendar_epoch : (s.withCalendar e q).epoch = e := rfl
@[simp] theorem withCalendar_subsec : (s.withCalendar e q).subsec = q := rfl
@[simp] theorem withCalendar_inbox : (s.withCalendar e q).inbox = s.inbox := rfl
@[simp] theorem withCalendar_returned : (s.withCalendar e q).returned = s.returned := rfl
@[simp] theorem withCalendar_draws : (s.withCalendar e q).draws = s.draws := rfl

end

/-! ### nextDraw -/

section

variable (s : State)

@[simp] theorem nextDraw_status : (s.nextDraw).status = s.status := rfl
@[simp] theorem nextDraw_cfgVn : (s.nextDraw).cfgVn = s.cfgVn := rfl
@[simp] theorem nextDraw_cfgTxen : (s.nextDraw).cfgTxen = s.cfgTxen := rfl
@[simp] theorem nextDraw_txSec : (s.nextDraw).txSec = s.txSec := rfl
@[simp] theorem nextDraw_txFrac : (s.nextDraw).txFrac = s.txFrac := rfl
@[simp] theorem nextDraw_txbuf : (s.nextDraw).txbuf = s.txbuf := rfl
@[simp] theorem nextDraw_rxbuf : (s.nextDraw).rxbuf = s.rxbuf := rfl
@[simp] theorem nextDraw_rxlen : (s.nextDraw).rxlen = s.rxlen := rfl
@[simp] theorem nextDraw_record : (s.nextDraw).record = s.record := rfl
@[simp] theorem nextDraw_convSec : (s.nextDraw).convSec = s.convSec := rfl
@[simp] theorem nextDraw_convFrac : (s.nextDraw).convFrac = s.convFrac := rfl
@[simp] theorem nextDraw_epoch : (s.nextDraw).epoch = s.epoch := rfl
@[simp] theorem nextDraw_subsec : (s.nextDraw).subsec = s.subsec := rfl
@[simp] theorem nextDraw_inbox : (s.nextDraw).inbox = s.inbox := rfl
@[simp] theorem nextDraw_returned : (s.nextDraw).returned = s.returned := rfl
@[simp] theorem nextDraw_draws : (s.nextDraw).draws = s.draws + 1 := rfl

end

/-! ### giveBack -/

section

variable (s : State) (r : ReadResult)

@[simp] theorem giveBack_status : (s.giveBack r).status = s.status := rfl
@[simp] theorem giveBack_cfgVn : (s.giveBack r).cfgVn = s.cfgVn := rfl
@[simp] theorem giveBack_cfgTxen : (s.giveBack r).cfgTxen = s.cfgTxen := rfl
@[simp] theorem giveBack_txSec : (s.giveBack r).txSec = s.txSec := rfl
@[simp] theorem giveBack_txFrac : (s.giveBack r).txFrac = s.txFrac := rfl
@[simp] theorem giveBack_txbuf : (s.giveBack r).txbuf = s.txbuf := rfl
@[simp] theorem giveBack_rxbuf : (s.giveBack r).rxbuf = s.rxbuf := rfl
@[simp] theorem giveBack_rxlen : (s.giveBack r).rxlen = s.rxlen := rfl
@[simp] theorem giveBack_record : (s.giveBack r).record = s.record := rfl
@[simp] theorem giveBack_convSec : (s.giveBack r).convSec = s.convSec := rfl
@[simp] theorem giveBack_convFrac : (s.giveBack r).convFrac = s.convFrac := rfl
@[simp] theorem giveBack_epoch : (s.giveBack r).epoch = s.epoch := rfl
@[simp] theorem giveBack_subsec : (s.giveBack r).subsec = s.subsec := rfl
@[simp] theorem giveBack_inbox : (s.giveBack r).inbox = s.inbox := rfl
@[simp] theorem giveBack_returned : (s.giveBack r).returned = r :: s.returned := rfl
@[simp] theorem giveBack_draws : (s.giveBack r).draws = s.draws := rfl

end

/-! ### withInbox -/

section

variable (s : State) (es : List Event)

@[simp] theorem withInbox_status : (s.withInbox es).status = s.status := rfl
@[simp] theorem withInbox_cfgVn : (s.withInbox es).cfgVn = s.cfgVn := rfl
@[simp] theorem withInbox_cfgTxen : (s.withInbox es).cfgTxen = s.cfgTxen := rfl
@[simp] theorem withInbox_txSec : (s.withInbox es).txSec = s.txSec := rfl
@[simp] theorem withInbox_txFrac : (s.withInbox es).txFrac = s.txFrac := rfl
@[simp] theorem withInbox_txbuf : (s.withInbox es).txbuf = s.txbuf := rfl
@[simp] theorem withInbox_rxbuf : (s.withInbox es).rxbuf = s.rxbuf := rfl
@[simp] theorem withInbox_rxlen : (s.withInbox es).rxlen = s.rxlen := rfl
@[simp] theorem withInbox_record : (s.withInbox es).record = s.record := rfl
@[simp] theorem withInbox_convSec : (s.withInbox es).convSec = s.convSec := rfl
@[simp] theorem withInbox_convFrac : (s.withInbox es).convFrac = s.convFrac := rfl
@[simp] theorem withInbox_epoch : (s.withInbox es).epoch = s.epoch := rfl
@[simp] theorem withInbox_subsec : (s.withInbox es).subsec = s.subsec := rfl
@[simp] theorem withInbox_inbox : (s.withInbox es).inbox = es := rfl
@[simp] theorem withInbox_returned : (s.withInbox es).returned = s.returned := rfl
@[simp] theorem withInbox_draws : (s.withInbox es).draws = s.draws := rfl

end

/-! ### A state's flags are the fields of its `STATUS` -/

section

variable (s : State)

@[simp] theorem err_eq : s.err = errField s.status := rfl
@[simp] theorem tvalid_eq : s.tvalid = tvalidField s.status := rfl
@[simp] theorem rvalid_eq : s.rvalid = rvalidField s.status := rfl
@[simp] theorem cvalid_eq : s.cvalid = cvalidField s.status := rfl

end

theorem withInbox_self (s : State) : s.withInbox s.inbox = s := rfl

theorem withInbox_withInbox (s : State) (es fs : List Event) : (s.withInbox es).withInbox fs = s.withInbox fs := rfl

end Sys2Proof.Machine
end

