-- ==== Sys2Proof/Laws/Ops.lean ====
section
/-!
SUPPORT. Laws/Ops: byte order, what the receive buffer shows, and all that `raise` and `applyReset` do.
-/

namespace Sys2Proof.Machine

/-! ### Byte order -/

@[simp] theorem wordBytes_length (v : Word) : (wordBytes v).length = 4 := rfl

theorem be32_toNat (c0 c1 c2 c3 : Byte) :
    (be32 c0 c1 c2 c3).toNat = c0.toNat * 2 ^ 24 + c1.toNat * 2 ^ 16 + c2.toNat * 2 ^ 8 + c3.toNat := by
  simp only [be32, BitVec.toNat_append]
  rw [← Nat.shiftLeft_add_eq_or_of_lt c3.isLt, ← Nat.shiftLeft_add_eq_or_of_lt c2.isLt,
    ← Nat.shiftLeft_add_eq_or_of_lt c1.isLt]
  simp only [Nat.shiftLeft_eq]
  omega

theorem extractByte_toNat (v : Word) (k : Nat) : (v.extractLsb' k 8).toNat = v.toNat / 2 ^ k % 2 ^ 8 := by
  simp [BitVec.extractLsb'_toNat, Nat.shiftRight_eq_div_pow]

/-- The four bytes `MemWrite` stores for a word read back as the word. -/
theorem be32_wordBytes (v : Word) :
    be32 (v.extractLsb' 24 8) (v.extractLsb' 16 8) (v.extractLsb' 8 8) (v.extractLsb' 0 8) = v := by
  apply BitVec.eq_of_toNat_eq
  have h := v.isLt
  rw [be32_toNat]
  simp only [extractByte_toNat]
  omega

/-- The bytes of `be32`, one by one. -/
theorem wordBytes_be32 (c0 c1 c2 c3 : Byte) : wordBytes (be32 c0 c1 c2 c3) = [c0, c1, c2, c3] := by
  have h0 := c0.isLt
  have h1 := c1.isLt
  have h2 := c2.isLt
  have h3 := c3.isLt
  simp only [wordBytes, List.cons.injEq, and_true]
  refine ⟨?_, ?_, ?_, ?_⟩ <;> apply BitVec.eq_of_toNat_eq <;> rw [extractByte_toNat, be32_toNat] <;> omega

/-! ### What `RXBUF` shows -/

theorem rxByte_of_written {s : State} {a : Nat} {b : Byte} (h : s.rxbuf.read a = some b) : s.rxByte a = b := by
  simp [State.rxByte, h]

theorem rxByte_of_unwritten {s : State} {a : Nat} (h : s.rxbuf.read a = none) :
    s.rxByte a = Config.freeRxByte s.draws a := by
  simp [State.rxByte, h]

/-! ### Errors and reset -/

/-- All that raising a `DecodeError` does (60_exceptions.md R216). -/
theorem raise_decode (d : DecodeError) (s : State) :
    raise (.decode d) s =
      { s with status := setErr (errorCode (.decode d)) (setRvalid false s.status), record := RecordRegs.noValue } := rfl

/-- All that raising `BeforeEpoch` does (60_exceptions.md R216). -/
theorem raise_conversion (c : ConversionError) (s : State) :
    raise (.conversion c) s =
      { s with
        status := setErr (errorCode (.conversion c)) (setCvalid false s.status), epoch := none, subsec := none } := rfl

@[simp] theorem applyReset_inbox (s : State) : (applyReset s).inbox = s.inbox := rfl
@[simp] theorem applyReset_returned (s : State) : (applyReset s).returned = s.returned := rfl
@[simp] theorem applyReset_draws (s : State) : (applyReset s).draws = s.draws := rfl

@[simp] theorem nextState_next (s : State) : nextState (.next s) = some s := rfl
@[simp] theorem nextState_fault (f : Fault) : nextState (.fault f) = none := rfl
@[simp] theorem nextState_refused (r : Refusal) : nextState (.refused r) = none := rfl

theorem nextState_eq_some {o : Host.Outcome State Fault Refusal} {t : State} : nextState o = some t ↔ o = .next t := by
  cases o <;> simp [nextState]

end Sys2Proof.Machine
end

