-- ==== Sys2Proof/Laws/Commands.lean ====
section
/-!
SUPPORT. Laws/Commands: one equation for each outcome of a command, and what the functions they apply give, so that no proof
unfolds a meaning or the transmit buffer's 48 writes.
-/

namespace Sys2Proof.Machine

/-! ### The wire format -/

theorem makeFlags_toNat : ∀ (li : BitVec 2) (vn mode : BitVec 3),
    (makeFlags li vn mode).toNat = li.toNat * 64 + vn.toNat * 8 + mode.toNat := by decide

theorem memRead4_toNat (buf : Nat → Byte) (a : Nat) :
    (memRead4 buf a).toNat = (buf a).toNat * 2 ^ 24 + (buf (a + 1)).toNat * 2 ^ 16 + (buf (a + 2)).toNat * 2 ^ 8
      + (buf (a + 3)).toNat := be32_toNat _ _ _ _

/-- The bytes of a word by index, most significant first. -/
theorem wordBytes_get (v : Word) (k : Nat) (h : k < 4) : (wordBytes v)[k]? = some (v.extractLsb' (8 * (3 - k)) 8) := by
  interval_cases k <;> rfl

/-- What ENC stores, in one line: the flags byte, zeros, and the two words of the transmit timestamp. -/
def requestBytes (f : Byte) (sec frac : Word) : List Byte :=
  [f] ++ List.replicate 39 0#8 ++ wordBytes sec ++ wordBytes frac

theorem encodeRequest_eq (vn : BitVec 3) (txen : BitVec 1) (sec frac : Word) :
    encodeRequest vn txen sec frac =
      requestBytes (makeFlags 0#2 vn clientMode) (if txen = 1#1 then sec else 0#32)
        (if txen = 1#1 then frac else 0#32) := by
  rw [encodeRequest, requestBytes, requestTransmit]
  split <;> rfl

/-- The image byte by byte. -/
theorem requestBytes_byte (f : Byte) (sec frac : Word) (a : Nat) (ha : a < 48) :
    imageByte (requestBytes f sec frac) a =
      if a = 0 then f
      else if a < 40 then 0#8
      else if a < 44 then sec.extractLsb' (8 * (43 - a)) 8
      else frac.extractLsb' (8 * (47 - a)) 8 := by
  interval_cases a <;> rfl

/-- The `MemWrite` lines of ENC leave the request's image at every address of the buffer ... -/
theorem encodeInto_read (m : Memory) (vn : BitVec 3) (txen : BitVec 1) (sec frac : Word) (a : Nat) (ha : a < 48) :
    (encodeInto m vn txen sec frac).read a = some (imageByte (encodeRequest vn txen sec frac) a) := by
  rw [encodeRequest_eq, requestBytes_byte _ _ _ _ ha]
  simp only [encodeInto, Memory.read_store, Memory.read_write, wordBytes_length, List.length_replicate]
  generalize (if txen = 1#1 then sec else 0#32) = w
  generalize (if txen = 1#1 then frac else 0#32) = w'
  by_cases h44 : 44 ≤ a
  · rw [if_pos (by omega), wordBytes_get _ _ (by omega), if_neg (by omega), if_neg (by omega), if_neg (by omega),
      show 3 - (a - 44) = 47 - a by omega]
  · rw [if_neg (by omega)]
    by_cases h40 : 40 ≤ a
    · rw [if_pos (by omega), wordBytes_get _ _ (by omega), if_neg (by omega), if_neg (by omega), if_pos (by omega),
        show 3 - (a - 40) = 43 - a by omega]
    · rw [if_neg (by omega)]
      by_cases h0 : a = 0
      · subst h0; rfl
      · rw [if_pos (by omega), if_neg h0, if_pos (by omega), List.getElem?_replicate, if_pos (by omega)]

/-- ... and change no other address. -/
theorem encodeInto_outside (m : Memory) (vn : BitVec 3) (txen : BitVec 1) (sec frac : Word) (a : Nat) (ha : 48 ≤ a) :
    (encodeInto m vn txen sec frac).read a = m.read a := by
  simp only [encodeInto, Memory.read_store, Memory.read_write, wordBytes_length, List.length_replicate]
  rw [if_neg (by omega), if_neg (by omega), if_neg (by omega), if_neg (by omega)]

/-- ENC keeps the canonical form of its buffer. -/
theorem encodeInto_wf {m : Memory} (vn : BitVec 3) (txen : BitVec 1) (sec frac : Word) (h : m.wf = true) :
    (encodeInto m vn txen sec frac).wf = true :=
  Memory.wf_store (Memory.wf_store (Memory.wf_store (Memory.wf_write _ h (by decide)) (by decide)) (by simp [pktLen]))
    (by simp [pktLen])

/-! ### The commands -/

theorem exec_enc (s : State) :
    exec .enc s = .next ((s.withTxbuf (encodeInto s.txbuf s.cfgVn s.cfgTxen s.txSec s.txFrac)).withStatus
      (setErr successCode (setTvalid true s.status))) := rfl

theorem exec_dec_error {s : State} {e : DecodeError} (h : decodeResponse s.rxlen s.rxByte = .error e) :
    exec .dec s = .next (raise (.decode e) s.afterDecRead) := by
  simp only [exec, execDec, h]

theorem exec_dec_ok {s : State} {p : NtpPacket} (h : decodeResponse s.rxlen s.rxByte = .ok p) :
    exec .dec s = .next ((s.afterDecRead.withRecord (RecordRegs.ofPacket p)).withStatus
      (setErr successCode (setRvalid true s.status))) := by
  simp only [exec, execDec, h]

theorem exec_conv_error {s : State} {e : ConversionError} (h : toCalendarTime s.convSec s.convFrac = .error e) :
    exec .conv s = .next (raise (.conversion e) s) := by
  simp only [exec, execConv, h]

theorem exec_conv_ok {s : State} {e q : Word} (h : toCalendarTime s.convSec s.convFrac = .ok (e, q)) :
    exec .conv s = .next ((s.withCalendar (some e) (some q)).withStatus
      (setErr successCode (setCvalid true s.status))) := by
  simp only [exec, execConv, h]

/-- Reading its operands, DEC moves nothing but the draw counter. -/
theorem afterDecRead_eq (s : State) :
    s.afterDecRead = { s with draws := if s.rxlen.toNat < pktLen then s.draws else s.draws + 1 } := by
  rw [State.afterDecRead]
  split <;> rfl

theorem decodeResponse_short {len : BitVec 16} {buf : Nat → Byte} (h : len.toNat < 48) :
    decodeResponse len buf = .error .shortBuffer := if_pos h

theorem decodeResponse_mode {len : BitVec 16} {buf : Nat → Byte} (h : 48 ≤ len.toNat)
    (hm : flagsMode (buf 0) ≠ serverMode) : decodeResponse len buf = .error .invalidMode := by
  rw [decodeResponse, if_neg (by simpa [pktLen] using h), if_pos hm]

theorem decodeResponse_kiss {len : BitVec 16} {buf : Nat → Byte} (h : 48 ≤ len.toNat)
    (hm : flagsMode (buf 0) = serverMode) (hs : buf 1 = 0#8) : decodeResponse len buf = .error .kissOfDeath := by
  rw [decodeResponse, if_neg (by simpa [pktLen] using h), if_neg (by simpa using hm), if_pos hs]

theorem decodeResponse_ok {len : BitVec 16} {buf : Nat → Byte} (h : 48 ≤ len.toNat)
    (hm : flagsMode (buf 0) = serverMode) (hs : buf 1 ≠ 0#8) : decodeResponse len buf = .ok (recordOf buf) := by
  rw [decodeResponse, if_neg (by simpa [pktLen] using h), if_neg (by simpa using hm), if_neg hs]

theorem toCalendarTime_before {s f : Word} (h : s.toNat < 2208988800) : toCalendarTime s f = .error .beforeEpoch :=
  if_pos h

theorem toCalendarTime_after {s f : Word} (h : 2208988800 ≤ s.toNat) :
    toCalendarTime s f = .ok (s - epochOffset, f) := if_neg (Nat.not_lt.mpr h)

/-- The subtraction of CONV cannot borrow (41_time_converter.md R163). -/
theorem sub_epochOffset_toNat {s : Word} (h : 2208988800 ≤ s.toNat) : (s - epochOffset).toNat = s.toNat - 2208988800 :=
  BitVec.toNat_sub_of_le h

/-- The request's image byte by byte (40_packet_codec.md R132). -/
theorem encodeRequest_byte (vn : BitVec 3) (txen : BitVec 1) (sec frac : Word) (a : Nat) (ha : a < 48) :
    imageByte (encodeRequest vn txen sec frac) a =
      if a = 0 then makeFlags 0#2 vn clientMode
      else if a < 40 then 0#8
      else if a < 44 then (if txen = 1#1 then sec else 0#32).extractLsb' (8 * (43 - a)) 8
      else (if txen = 1#1 then frac else 0#32).extractLsb' (8 * (47 - a)) 8 := by
  rw [encodeRequest_eq, requestBytes_byte _ _ _ _ ha]

/-- The record depends on the bytes at 0 to 47 only (20_memory.md R68). -/
theorem recordOf_congr {buf buf' : Nat → Byte} (h : ∀ a, a < 48 → buf a = buf' a) : recordOf buf = recordOf buf' := by
  simp only [recordOf, memRead4, Nat.reduceAdd]
  rw [h 0 (by omega), h 1 (by omega), h 2 (by omega), h 3 (by omega)]
  simp (disch := omega) only [h]

/-- All that a conversion that succeeds can give. -/
theorem toCalendarTime_ok {s f e q : Word} (h : toCalendarTime s f = .ok (e, q)) :
    2208988800 ≤ s.toNat ∧ e = s - epochOffset ∧ q = f := by
  rcases Nat.lt_or_ge s.toNat 2208988800 with hs | hs
  · rw [toCalendarTime_before hs] at h; cases h
  · rw [toCalendarTime_after hs] at h; cases h; exact ⟨hs, rfl, rfl⟩

theorem pairValue_toNat (sec frac : Word) : (pairValue sec frac).toNat = sec.toNat * 2 ^ 32 + frac.toNat := by
  rw [pairValue, BitVec.toNat_append, ← Nat.shiftLeft_add_eq_or_of_lt frac.isLt, Nat.shiftLeft_eq]

/-- The fields of a marshalled record are the record's: the part of 40_packet_codec.md R148 (a) that is about the bytes. -/
theorem recordOf_marshal (r : NtpPacket) : recordOf (imageByte (marshal r)) = r := by
  simp only [recordOf, memRead4, marshal, wordBytes, List.cons_append, List.nil_append, imageByte, Nat.reduceAdd,
    List.getD_eq_getElem?_getD, List.getElem?_cons_zero, List.getElem?_cons_succ, Option.getD_some, be32_wordBytes]

/-- Marshalling the fields of 48 bytes gives the bytes back: the part of 40_packet_codec.md R148 (b) that is about them. -/
theorem marshal_recordOf (buf : Nat → Byte) (a : Nat) (ha : a < 48) : imageByte (marshal (recordOf buf)) a = buf a := by
  simp only [marshal, recordOf, memRead4, wordBytes_be32, Nat.reduceAdd, List.cons_append, List.nil_append]
  interval_cases a <;> simp only [imageByte, List.getD_eq_getElem?_getD, List.getElem?_cons_zero,
    List.getElem?_cons_succ, Option.getD_some]

theorem marshal_length (r : NtpPacket) : (marshal r).length = 48 := rfl

/-! ### All that a command can do -/

/-- Two next states of one outcome are one state. -/
theorem next_unique {s t : State} {o : Host.Outcome State Fault Refusal} (h : o = .next s) (h' : o = .next t) : t = s := by
  rw [h] at h'; cases h'; rfl

/-- All that DEC can do: its four ends, in the priority of 60_exceptions.md R215. -/
theorem exec_dec_cases (s : State) :
    (s.rxlen.toNat < 48 ∧ exec .dec s = .next (raise (.decode .shortBuffer) s)) ∨
    (48 ≤ s.rxlen.toNat ∧ flagsMode (s.rxByte 0) ≠ serverMode ∧
      exec .dec s = .next (raise (.decode .invalidMode) s.nextDraw)) ∨
    (48 ≤ s.rxlen.toNat ∧ flagsMode (s.rxByte 0) = serverMode ∧ s.rxByte 1 = 0#8 ∧
      exec .dec s = .next (raise (.decode .kissOfDeath) s.nextDraw)) ∨
    (48 ≤ s.rxlen.toNat ∧ flagsMode (s.rxByte 0) = serverMode ∧ s.rxByte 1 ≠ 0#8 ∧
      exec .dec s = .next ((s.nextDraw.withRecord (RecordRegs.ofPacket (recordOf s.rxByte))).withStatus
        (setErr successCode (setRvalid true s.status)))) := by
  by_cases h : s.rxlen.toNat < 48
  · exact .inl ⟨h, by rw [exec_dec_error (decodeResponse_short h), State.afterDecRead, if_pos (show _ < pktLen from h)]⟩
  · rw [← show s.afterDecRead = s.nextDraw by rw [State.afterDecRead, if_neg (show ¬ _ < pktLen from h)]]
    have h' : 48 ≤ s.rxlen.toNat := Nat.not_lt.mp h
    by_cases hm : flagsMode (s.rxByte 0) = serverMode
    · by_cases hs : s.rxByte 1 = 0#8
      · exact .inr (.inr (.inl ⟨h', hm, hs, exec_dec_error (decodeResponse_kiss h' hm hs)⟩))
      · exact .inr (.inr (.inr ⟨h', hm, hs, exec_dec_ok (decodeResponse_ok h' hm hs)⟩))
    · exact .inr (.inl ⟨h', hm, exec_dec_error (decodeResponse_mode h' hm)⟩)

/-- All that CONV can do: its two ends. -/
theorem exec_conv_cases (s : State) :
    (s.convSec.toNat < 2208988800 ∧ exec .conv s = .next (raise (.conversion .beforeEpoch) s)) ∨
    (2208988800 ≤ s.convSec.toNat ∧
      exec .conv s = .next ((s.withCalendar (some (s.convSec - epochOffset)) (some s.convFrac)).withStatus
        (setErr successCode (setCvalid true s.status)))) := by
  rcases Nat.lt_or_ge s.convSec.toNat 2208988800 with h | h
  · exact .inl ⟨h, exec_conv_error (toCalendarTime_before h)⟩
  · exact .inr ⟨h, exec_conv_ok (toCalendarTime_after h)⟩

/-- What a command of any kind leaves: its operands, the receive buffer, what waits and what was read. -/
theorem exec_keeps {i : Instr} {s t : State} (h : exec i s = .next t) :
    t.cfgVn = s.cfgVn ∧ t.cfgTxen = s.cfgTxen ∧ t.txSec = s.txSec ∧ t.txFrac = s.txFrac ∧ t.rxbuf = s.rxbuf ∧
    t.rxlen = s.rxlen ∧ t.convSec = s.convSec ∧ t.convFrac = s.convFrac ∧ t.inbox = s.inbox ∧
    t.returned = s.returned := by
  cases i
  · rw [next_unique (exec_enc s) h]; simp
  · rcases exec_dec_cases s with ⟨-, e⟩ | ⟨-, -, e⟩ | ⟨-, -, -, e⟩ | ⟨-, -, -, e⟩ <;>
      rw [next_unique e h] <;> simp [raise_decode]
  · rcases exec_conv_cases s with ⟨-, e⟩ | ⟨-, e⟩ <;> rw [next_unique e h] <;> simp [raise_conversion]

/-- What a command leaves of the results of the others (10_state.md R30, R39). -/
theorem exec_other_results {i : Instr} {s t : State} (h : exec i s = .next t) :
    (i ≠ .enc → t.txbuf = s.txbuf) ∧ (i ≠ .dec → t.record = s.record) ∧
    (i ≠ .conv → t.epoch = s.epoch ∧ t.subsec = s.subsec) := by
  cases i
  · rw [next_unique (exec_enc s) h]; simp
  · rcases exec_dec_cases s with ⟨-, e⟩ | ⟨-, -, e⟩ | ⟨-, -, -, e⟩ | ⟨-, -, -, e⟩ <;>
      rw [next_unique e h] <;> simp [raise_decode]
  · rcases exec_conv_cases s with ⟨-, e⟩ | ⟨-, e⟩ <;> rw [next_unique e h] <;> simp [raise_conversion]

end Sys2Proof.Machine
end

