-- ==== Sys2Proof/Laws/Operands.lean ====
section
/-!
SUPPORT. Laws/Operands: the register table, and all that one register or buffer access can do.
-/

namespace Sys2Proof.Machine

/-- The index numbers and the order of the table agree (10_state.md R21). -/
theorem Reg.ofIndex_index (r : Reg) : Reg.ofIndex r.index = some r := by cases r <;> rfl

/-- There are 26 registers (10_state.md R21). -/
theorem Reg.ofIndex_none (i : Nat) (h : 26 ≤ i) : Reg.ofIndex i = none := by
  simp [Reg.ofIndex, Reg.all]; omega

theorem Data.fits_iff {d : Data} {w : Nat} : d.fits w = true ↔ d.width = w ∧ d.value < 2 ^ w := by
  simp [Data.fits]

theorem Data.fits_ofBits {w : Nat} (v : BitVec w) : (Data.ofBits v).fits w = true := by
  simp [Data.fits, Data.ofBits, v.isLt]

/-- What a register holds has the register's width. -/
theorem regValue_fits {s : State} {r : Reg} {d : Data} (h : s.regValue r = some d) : d.fits r.width = true := by
  cases r <;> simp only [State.regValue, Option.map_eq_some_iff, Option.some.injEq, reduceCtorEq] at h <;>
    first
    | (subst h; exact Data.fits_ofBits _)
    | (obtain ⟨x, -, rfl⟩ := h; exact Data.fits_ofBits _)

/-- A read gives a value exactly when the register is readable and holds that value. -/
theorem readReg_eq_ok {s : State} {r : Reg} {d : Data} :
    s.readReg r = .ok d ↔ r.access ≠ .wo ∧ s.regValue r = some d := by
  unfold State.readReg
  cases r.access <;> cases s.regValue r <;> simp

/-- After a host write the register holds the data written. -/
theorem storeReg_same {s : State} {r : Reg} {d : Data} (hr : r.access = .rw) (hd : d.fits r.width = true) :
    (s.storeReg r d.value).regValue r = some d := by
  obtain ⟨w, v⟩ := d
  rw [Data.fits_iff] at hd
  obtain ⟨hw, hv⟩ := hd
  simp only at hw hv
  subst hw
  cases r <;> simp only [Reg.access, reduceCtorEq] at hr <;> simp only [Reg.width] at hv <;>
    simp only [State.storeReg, State.regValue, Data.ofBits, Reg.width, BitVec.toNat_ofNat, Nat.mod_eq_of_lt hv]

/-- A host write of a register leaves every other register. -/
theorem storeReg_other {s : State} {r r' : Reg} (v : Nat) (h : r' ≠ r) :
    (s.storeReg r v).regValue r' = s.regValue r' := by
  cases r <;> first | rfl | (cases r' <;> first | rfl | exact absurd rfl h)

/-- A host write of a register leaves both buffers and the model's own fields. -/
theorem storeReg_rest (s : State) (r : Reg) (v : Nat) :
    (s.storeReg r v).txbuf = s.txbuf ∧ (s.storeReg r v).rxbuf = s.rxbuf ∧ (s.storeReg r v).inbox = s.inbox ∧
    (s.storeReg r v).returned = s.returned ∧ (s.storeReg r v).draws = s.draws := by
  cases r <;> exact ⟨rfl, rfl, rfl, rfl, rfl⟩

/-- A host write of a register leaves every result and `STATUS`. -/
theorem storeReg_results (s : State) (r : Reg) (v : Nat) :
    (s.storeReg r v).status = s.status ∧ (s.storeReg r v).record = s.record ∧ (s.storeReg r v).epoch = s.epoch ∧
    (s.storeReg r v).subsec = s.subsec := by
  cases r <;> exact ⟨rfl, rfl, rfl, rfl⟩

/-- All that a completed buffer read can do: it gives the byte back; only the draw counter may move besides. -/
theorem bufRead_next {sp : Space} {a : Nat} {s t : State} (h : bufRead sp a s = .next t) :
    ∃ (b : Byte) (n : Nat), t = { s with returned := .buf sp a b :: s.returned, draws := n } ∧
      (sp = .tx → s.txbuf.read a = some b) ∧ (sp = .rx → b = s.rxByte a) := by
  cases sp <;> simp only [bufRead] at h <;> split at h <;> cases h
  · exact ⟨_, s.draws, rfl, fun _ => by assumption, nofun⟩
  · exact ⟨_, s.draws, rfl, nofun, fun _ => (rxByte_of_written (by assumption)).symm⟩
  · exact ⟨_, s.draws + 1, rfl, nofun, fun _ => rfl⟩

/-- All that a completed buffer write can do: one byte of `RXBUF`. -/
theorem bufWrite_next {sp : Space} {a : Nat} {d : Data} {s t : State} (h : bufWrite sp a d s = .next t) :
    sp = .rx ∧ d.fits 8 = true ∧ t = s.withRxbuf (s.rxbuf.write a (BitVec.ofNat 8 d.value)) := by
  cases sp <;> simp only [bufWrite] at h
  · cases h
  · split at h <;> cases h
    exact ⟨rfl, by assumption, rfl⟩

end Sys2Proof.Machine
end

