-- ==== Sys2Proof/Laws/HostPort.lean ====
section
/-!
SUPPORT. Laws/HostPort: what one host transaction does, one equation each, and sequences of them.
-/

namespace Sys2Proof.Machine

theorem decode_reserved (c : Byte) (h : c.toNat = 0 ∨ 4 ≤ c.toNat) : decode c = .reservedCode c := by
  revert c; decide

/-- A byte written to `CMD`. -/
theorem perform_cmd (c : Byte) (s : State) : perform (cmdTxn { width := 8, value := c.toNat }) s = runCommand c s := by
  have hlt := c.isLt
  simp [perform, cmdTxn, hostRegWrite, Reg.access, Data.fits, Reg.width, hlt]

/-- A command's code written to `CMD`. -/
theorem perform_command (i : Instr) (s : State) : perform (commandTxn i) s = exec i s := by
  rw [commandTxn, perform_cmd, runCommand]
  cases i <;> rfl

theorem perform_read {s : State} {r : Reg} {d : Data} (h1 : r.access ≠ .wo) (h2 : s.regValue r = some d) :
    perform (.regRead r) s = .next (s.giveBack (.reg r d)) := by
  rw [perform, hostRegRead, readReg_eq_ok.mpr ⟨h1, h2⟩]

theorem perform_read_none {s : State} {r : Reg} (h1 : r.access ≠ .wo) (h2 : s.regValue r = none) :
    perform (.regRead r) s = .refused (.readNoValue r) := by
  rw [perform, hostRegRead, State.readReg, h2]
  cases h : r.access <;> simp_all

theorem perform_write {s : State} {r : Reg} {d : Data} (h1 : r.access = .rw) (h2 : d.fits r.width = true) :
    perform (.regWrite r d) s = .next (s.storeReg r d.value) := by
  simp [perform, hostRegWrite, h1, h2]

/-- A `TXBUF` byte that holds a value. -/
theorem perform_read_tx {s : State} {a : Nat} {b : Byte} (ha : a < 48) (hb : s.txbuf.read a = some b) :
    perform (.bufRead .tx a) s = .next (s.giveBack (.buf .tx a b)) := by
  simp [perform, hostBufRead, pktLen, ha, bufRead, hb]

/-- An `RXBUF` byte that the host has written. -/
theorem perform_read_rx {s : State} {a : Nat} {b : Byte} (ha : a < 48) (hb : s.rxbuf.read a = some b) :
    perform (.bufRead .rx a) s = .next (s.giveBack (.buf .rx a b)) := by
  simp [perform, hostBufRead, pktLen, ha, bufRead, hb]

theorem perform_put {s : State} {a : Nat} {d : Data} (ha : a < 48) (hd : d.fits 8 = true) :
    perform (.bufWrite .rx a d) s = .next (s.withRxbuf (s.rxbuf.write a (BitVec.ofNat 8 d.value))) := by
  simp [perform, hostBufWrite, pktLen, ha, bufWrite, hd]

/-- One transaction after another. -/
theorem issueAll_append (ts ts' : List Txn) (s : State) :
    issueAll (ts ++ ts') s =
      match issueAll ts s with
      | .next s' => issueAll ts' s'
      | .fault r => .fault r
      | .refused r => .refused r := by
  induction ts generalizing s with
  | nil => rfl
  | cons t ts ih =>
    simp only [List.cons_append, issueAll]
    cases perform t s <;> simp [ih]

/-- `TXBUF` bytes read one after another, all of them holding values. -/
theorem issueAll_reads (f : Nat → Byte) (l : List Nat) (s : State) (hl : ∀ a ∈ l, a < 48)
    (hf : ∀ a, a < 48 → s.txbuf.read a = some (f a)) :
    issueAll (l.map fun a => Txn.bufRead .tx a) s =
      .next { s with returned := (l.map fun a => ReadResult.buf .tx a (f a)).reverse ++ s.returned } := by
  induction l generalizing s with
  | nil => rfl
  | cons a l ih =>
    have ha := hl a (by simp)
    simp only [List.map_cons, issueAll, perform_read_tx ha (hf a ha)]
    rw [ih _ (fun x hx => hl x (by simp [hx])) (by simpa using hf)]
    simp [State.giveBack]

/-- `RXBUF` bytes written one after another. -/
theorem issueAll_wrbTxns (bs : List Byte) (a : Nat) (s : State) (h : a + bs.length ≤ 48) :
    issueAll (wrbTxns a bs) s = .next (s.withRxbuf (s.rxbuf.store a bs)) := by
  induction bs generalizing a s with
  | nil => rfl
  | cons b bs ih =>
    rw [List.length_cons] at h
    have hd : ({ width := 8, value := b.toNat } : Data).fits 8 = true := Data.fits_ofBits b
    simp only [wrbTxns, issueAll, wrbTxn, perform_put (show a < 48 by omega) hd]
    rw [ih _ _ (by omega)]
    simp [State.withRxbuf, Memory.store]

/-- `LDRX` (30_encoding.md R119). -/
theorem issueAll_ldrxTxns (n : Nat) (hn : n < 65536) (payload : List Byte) (s : State) :
    issueAll (ldrxTxns n payload) s =
      .next ((s.storeReg .rxlen n).withRxbuf (s.rxbuf.store 0 (payload.take 48))) := by
  have hd : ({ width := 16, value := n } : Data).fits Reg.rxlen.width = true := Data.fits_iff.mpr ⟨rfl, hn⟩
  simp only [ldrxTxns, issueAll]
  rw [wrTxn, show Reg.rxlen.width = 16 from rfl, perform_write rfl hd]
  simp only
  rw [issueAll_wrbTxns _ _ _ (by simp [pktLen])]
  rfl

/-- A read of a register that holds a value. -/
theorem hostRead_eq {σ : Type} {r : Reg} {s : State} {k : Nat → State → Host.Outcome σ Fault Refusal} {d : Data}
    (h1 : r.access ≠ .wo) (h2 : s.regValue r = some d) : hostRead r s k = k d.value (s.giveBack (.reg r d)) := by
  rw [hostRead, readReg_eq_ok.mpr ⟨h1, h2⟩]

/-- A read that goes on has read a value. -/
theorem hostRead_next {σ : Type} {r : Reg} {s : State} {k : Nat → State → Host.Outcome σ Fault Refusal} {t : σ}
    (h : hostRead r s k = .next t) : ∃ d, s.regValue r = some d ∧ k d.value (s.giveBack (.reg r d)) = .next t := by
  rw [hostRead] at h
  split at h
  · exact ⟨_, (readReg_eq_ok.mp (by assumption)).2, h⟩
  · cases h

end Sys2Proof.Machine
end

