-- ==== Sys2Proof/Laws/HostSequence.lean ====
section
/-!
SUPPORT. Laws/HostSequence: all that the named updates and the later phases of the host's machine can do.
-/

namespace Sys2Proof.Machine

/-! ### The local clock (42_host_sequence.md R183) -/

theorem localClock_le_succ (n : Nat) : localClock n ≤ localClock (n + 1) := Nat.le_add_right _ _

/-- The clock is monotonic. -/
theorem localClock_mono {m n : Nat} (h : m ≤ n) : localClock m ≤ localClock n := by
  induction h with
  | refl => exact Nat.le_refl _
  | step _ ih => exact Nat.le_trans ih (localClock_le_succ _)

/-! ### The transport -/

theorem isResponse_datagram (cfg : SyncConfig) (address port : Nat) (payload : List Byte) :
    (NetEvent.datagram address port payload).isResponse cfg = true ↔ address = cfg.serverAddress ∧ port = cfg.port := by
  simp [NetEvent.isResponse]

@[simp] theorem release_endpoint (s : SyncState) : s.release.endpoint = none := by
  cases h : s.endpoint <;> simp [SyncState.release, h]

/-- Releasing an endpoint in hand. -/
theorem release_of_some {s : SyncState} {x : Session} (h : s.endpoint = some x) :
    s.release = { s with endpoint := none, released := s.released + 1 } := by
  simp [SyncState.release, h]

/-- All that a transient failure can do: it releases the endpoint and uses a retry, or ends the call. -/
theorem transient_cases (s : SyncState) (e : SyncError) :
    (s.retries < s.cfg.maxRetries ∧ s.transient e = { s.release with retries := s.retries + 1 }) ∨
    (s.cfg.maxRetries ≤ s.retries ∧ s.transient e = { s.release with phase := .doneFailure e }) := by
  rcases Nat.lt_or_ge s.retries s.cfg.maxRetries with h | h
  · exact .inl ⟨h, if_pos h⟩
  · exact .inr ⟨h, if_neg (Nat.not_lt.mpr h)⟩

/-- All that the first half of `exchange` can do: the instant is recorded, then the lower layer fails to send or the request
goes out. -/
theorem sendStep_cases (s : SyncState) (localPort : Nat) :
    (∃ rest, s.sends = false :: rest ∧ sendStep s localPort = ({ s with sends := rest }).stampTransmit.transient .io) ∨
    (s.sends.head? ≠ some false ∧ sendStep s localPort = ({ s with sends := s.sends.tail }).stampTransmit.send localPort) := by
  rcases h : s.sends with _ | ⟨_ | _, rest⟩
  · exact .inr ⟨by simp, by simp [sendStep, h, SyncState.stampTransmit, SyncState.send]⟩
  · exact .inl ⟨rest, rfl, by simp [sendStep, h]⟩
  · exact .inr ⟨by simp, by simp [sendStep, h]⟩

/-- All that a response can do: the block takes the bytes, the instant is recorded, the endpoint is released. -/
theorem receiveStep_eq (s : SyncState) (payload : List Byte) :
    receiveStep s payload = .next { s.stampReceive.release with
      block := (s.block.storeReg .rxlen (min payload.length 65535)).withRxbuf (s.block.rxbuf.store 0 (payload.take 48))
      phase := .validating } := by
  simp only [receiveStep, issueAll_ldrxTxns _ (show min payload.length 65535 < 65536 by omega)]

/-- A step of a call whose endpoint is open is the first half of `exchange`. -/
theorem syncStep_opened {s : SyncState} {localPort : Nat} (hp : s.phase = .awaitingResponse)
    (he : s.endpoint = some (.opened localPort)) : syncStep s = .next (sendStep s localPort) := by
  rw [show syncStep s = awaitStep s by simp only [syncStep, hp], awaitStep]
  split <;> simp_all

/-- A step of a call whose request is sent is one event of the wait. -/
theorem syncStep_waiting {s : SyncState} {localPort : Nat} (hp : s.phase = .awaitingResponse)
    (he : s.endpoint = some (.waiting localPort)) : syncStep s = waitStep s := by
  rw [show syncStep s = awaitStep s by simp only [syncStep, hp], awaitStep]
  split <;> simp_all

/-! ### The phases after the exchange -/

/-- `t` differs from `s` in the block and the phase only. -/
def SameCall (s t : SyncState) : Prop := t = { s with block := t.block, phase := t.phase }

/-- All that the sanity checks can do. -/
theorem sanityStep_next {s t : SyncState} (h : sanityStep s = .next t) :
    SameCall s t ∧ (t.phase = .converting ∨ t.phase.isDone = true) := by
  rw [sanityStep] at h
  obtain ⟨_, -, h⟩ := hostRead_next h
  obtain ⟨_, -, h⟩ := hostRead_next h
  split at h
  · cases h; exact ⟨rfl, .inr rfl⟩
  · obtain ⟨_, -, h⟩ := hostRead_next h
    split at h <;> cases h
    · exact ⟨rfl, .inl rfl⟩
    · exact ⟨rfl, .inr rfl⟩

/-- All that Validating can do. -/
theorem validateStep_next {s t : SyncState} (h : validateStep s = .next t) :
    SameCall s t ∧ (t.phase = .converting ∨ t.phase.isDone = true) := by
  rw [validateStep] at h
  split at h
  · obtain ⟨_, -, h⟩ := hostRead_next h
    split at h
    · cases h; exact ⟨rfl, .inr rfl⟩
    · have ht := sanityStep_next h
      exact ht
  · cases h
  · cases h

/-- All that Converting can do. -/
theorem convertStep_next {s t : SyncState} (h : convertStep s = .next t) :
    SameCall s t ∧ t.phase.isDone = true := by
  rw [convertStep] at h
  split at h
  · split at h
    · obtain ⟨_, -, h⟩ := hostRead_next h
      split at h
      · cases h; exact ⟨rfl, rfl⟩
      · rw [resultStep] at h
        obtain ⟨_, -, h⟩ := hostRead_next h
        obtain ⟨_, -, h⟩ := hostRead_next h
        obtain ⟨_, -, h⟩ := hostRead_next h
        obtain ⟨_, -, h⟩ := hostRead_next h
        cases h; exact ⟨rfl, rfl⟩
    · cases h
    · cases h
  · cases h
  · cases h

end Sys2Proof.Machine
end

