-- ==== Sys2Proof/Laws/PerInstr.lean ====
section
/-!
SUPPORT. Laws/PerInstr: statements about each command as syntax, one lemma a constructor.
-/

namespace Sys2Proof.Laws.CodeInTable

/-- The command is well formed and its code lies in the range the table uses, 1 to 3 (30_encoding.md R110), so it is none
of the reserved codes of R111. -/
def Statement (i : Instr) : Prop := i.wf = true ∧ 1 ≤ (encode i).toNat ∧ (encode i).toNat ≤ 3

theorem enc : Statement .enc := ⟨rfl, by decide, by decide⟩

theorem dec : Statement .dec := ⟨rfl, by decide, by decide⟩

theorem conv : Statement .conv := ⟨rfl, by decide, by decide⟩

end Sys2Proof.Laws.CodeInTable
end

