-- ==== Sys2Proof/Laws/Step.lean ====
section
/-!
SUPPORT. Laws/Step: all that one event, and so one step, can do.
-/

namespace Sys2Proof.Machine

/-- All that a completed event can do: run a command, write one operand register or one `RXBUF` byte, give a value
back to the host, or reset. -/
inductive EventEffect (e : Event) (s t : State) : Prop where
  | command (i : Instr) (d : Data) (he : e = .host (.regWrite .cmd d)) (hd : d.fits 8 = true)
      (hi : decode (BitVec.ofNat 8 d.value) = .command i) (ht : exec i s = .next t)
  | store (r : Reg) (d : Data) (he : e = .host (.regWrite r d)) (hr : r.access = .rw) (hd : d.fits r.width = true)
      (ht : t = s.storeReg r d.value)
  | read (r : Reg) (d : Data) (he : e = .host (.regRead r)) (hr : r.access ≠ .wo) (hv : s.regValue r = some d)
      (ht : t = s.giveBack (.reg r d))
  | putByte (a : Nat) (d : Data) (he : e = .host (.bufWrite .rx a d)) (ha : a < pktLen) (hd : d.fits 8 = true)
      (ht : t = s.withRxbuf (s.rxbuf.write a (BitVec.ofNat 8 d.value)))
  | getByte (sp : Space) (a : Nat) (b : Byte) (n : Nat) (he : e = .host (.bufRead sp a)) (ha : a < pktLen)
      (ht : t = { s with returned := .buf sp a b :: s.returned, draws := n })
  | reset (he : e = .reset) (ht : t = applyReset s)

theorem handle_next {e : Event} {s t : State} (h : handle e s = .next t) : EventEffect e s t := by
  rcases e with (⟨r, d⟩ | r | ⟨sp, a, d⟩ | ⟨sp, a⟩) | _ | _
  · simp only [handle, perform, hostRegWrite] at h
    cases hr : r.access <;> rw [hr] at h
    · cases h
    · have hcmd : r = .cmd := by cases r <;> simp [Reg.access] at hr ⊢
      subst hcmd
      simp only at h
      split at h
      · rw [runCommand] at h
        split at h
        · exact .command _ d rfl (by assumption) (by assumption) h
        · cases h
      · cases h
    · simp only at h
      split at h <;> cases h
      exact .store r d rfl hr (by assumption) rfl
  · simp only [handle, perform, hostRegRead] at h
    split at h <;> cases h
    exact .read r _ rfl (readReg_eq_ok.mp (by assumption)).1 (readReg_eq_ok.mp (by assumption)).2 rfl
  · simp only [handle, perform, hostBufWrite] at h
    split at h
    · obtain ⟨rfl, hd, ht⟩ := bufWrite_next h
      exact .putByte a d rfl (by assumption) hd ht
    · cases h
  · simp only [handle, perform, hostBufRead] at h
    split at h
    · obtain ⟨b, n, ht, -⟩ := bufRead_next h
      exact .getByte sp a b n rfl (by assumption) ht
    · cases h
  · cases h
    exact .reset rfl rfl
  · cases h

/-- A step with an event waiting is that event, taken from the front. -/
theorem step_cons {s : State} {e : Event} {rest : List Event} (h : s.inbox = e :: rest) :
    step s = handle e (s.withInbox rest) := by
  simp [step, takeEvent, h]

/-- A step with none waiting changes nothing (10_state.md R40). -/
theorem step_nil {s : State} (h : s.inbox = []) : step s = .next s := by simp [step, takeEvent, h]

/-- All that a completed step can do. -/
theorem step_next {s t : State} (h : step s = .next t) :
    (s.inbox = [] ∧ t = s) ∨ ∃ e rest, s.inbox = e :: rest ∧ EventEffect e (s.withInbox rest) t := by
  cases hs : s.inbox with
  | nil => rw [step_nil hs] at h; cases h; exact .inl ⟨rfl, rfl⟩
  | cons e rest => rw [step_cons hs] at h; exact .inr ⟨e, rest, rfl, handle_next h⟩

end Sys2Proof.Machine
end

