-- ==== Sys2Proof/Tests/Slice0.lean ====
section
/-!
SUPPORT. Tests/Slice0: decode tests, the smoke test of WellFormed, at most two tests a command, and a witness for the
hypotheses of each obligation that has some.

Expected results come from spec/95_test_vectors.md, from the tables of the spec's rules, or from hand calculation on them.
-/

namespace Sys2Proof.Tests

open Sys2Proof Sys2Proof.Machine

/-! ## Helpers -/

/-- Packet P1 of 95_test_vectors.md. -/
def packetP1 : List Byte :=
  [0x24, 0x02, 0x06, 0xEC, 0x00, 0x00, 0x0A, 0x3D, 0x00, 0x00, 0x12, 0x34, 0xC0, 0xA8, 0x00, 0x01] ++
  [0xE9, 0x3C, 0x7E, 0x00, 0x11, 0x11, 0x11, 0x11, 0x12, 0x34, 0x56, 0x78, 0x9A, 0xBC, 0xDE, 0xF0] ++
  [0xE9, 0x3C, 0x7F, 0x00, 0x40, 0x00, 0x00, 0x00, 0xE9, 0x3C, 0x7F, 0x00, 0x80, 0x00, 0x00, 0x00]

/-- Packet K of 95_test_vectors.md, with byte 0 as given (0x24 in the file). -/
def packetK (first : Byte) : List Byte :=
  [first, 0x00, 0x00, 0x00, 0x00, 0x00, 0x00, 0x00, 0x00, 0x00, 0x00, 0x00, 0x52, 0x41, 0x54, 0x45] ++
  [0x00, 0x00, 0x00, 0x00, 0x00, 0x00, 0x00, 0x00, 0x12, 0x34, 0x56, 0x78, 0x9A, 0xBC, 0xDE, 0xF0] ++
  List.replicate 16 0x00

/-- Packet P1 with its first two bytes as given. -/
def packetWith (first second : Byte) : List Byte := first :: second :: packetP1.drop 2

/-- Reset, then a datagram of the given length loaded. -/
def loaded (len : Nat) (bytes : List Byte) : State :=
  { State.reset with rxlen := BitVec.ofNat 16 len, rxbuf := Memory.store [] 0 bytes }

/-- Reset, then the operands of CONV written. -/
def convAt (sec frac : Word) : State := { State.reset with convSec := sec, convFrac := frac }

/-- Reset, then the operands of ENC written. -/
def encAt (vn : BitVec 3) (txen : BitVec 1) (sec frac : Word) : State :=
  { State.reset with cfgVn := vn, cfgTxen := txen, txSec := sec, txFrac := frac }

/-- Data of a register's width. -/
def data (w v : Nat) : Data := { width := w, value := v }

/-- Reset with one event to come. -/
def pending (e : Event) : State := State.reset.withInbox [e]

/-! ## Decoding: words written out from 30_encoding.md R110 -/

theorem test_decode_enc : decodeTableWord 8 0b00000001 = some .enc := by decide

theorem test_decode_dec : decodeTableWord 8 0b00000010 = some .dec := by decide

theorem test_decode_conv : decodeTableWord 8 0b00000011 = some .conv := by decide

/-- 30_encoding.md R111: the codes on both sides of the table, and the last one. -/
theorem test_decode_reserved :
    decode 0b00000000#8 = .reservedCode 0x00#8 ∧ decode 0b00000100#8 = .reservedCode 0x04#8 ∧
    decode 0b11111111#8 = .reservedCode 0xFF#8 := by decide

/-- 10_state.md R21: the index numbers count the registers off. -/
theorem test_register_indexes : Reg.all.map Reg.index = List.range 26 := by decide

/-! ## WellFormed: an ill-formed term for each check, which the check refuses -/

theorem test_wf_accepts : (Txn.regWrite .cfgVn (data 3 4)).wf = true ∧ (Txn.bufWrite .rx 47 (data 8 255)).wf = true ∧
    (Txn.bufRead .tx 0).wf = true ∧ (Txn.regRead .status).wf = true := by decide

theorem test_wf_read_only_write : (Txn.regWrite .status (data 8 0)).wf = false := by decide

theorem test_wf_wrong_width : (Txn.regWrite .cfgVn (data 8 4)).wf = false := by decide

theorem test_wf_value_too_wide : (Txn.regWrite .cfgVn (data 3 8)).wf = false := by decide

theorem test_wf_cmd_read : (Txn.regRead .cmd).wf = false := by decide

theorem test_wf_transmit_write : (Txn.bufWrite .tx 0 (data 8 0)).wf = false := by decide

theorem test_wf_write_beyond_buffer : (Txn.bufWrite .rx 48 (data 8 0)).wf = false := by decide

theorem test_wf_two_byte_write : (Txn.bufWrite .rx 0 (data 16 0)).wf = false := by decide

theorem test_wf_read_beyond_buffer : (Txn.bufRead .rx 48).wf = false := by decide

theorem test_wf_second_host : (Event.secondHost (.regRead .status)).wf = false := by decide

/-! ## The commands: vectors of 95_test_vectors.md -/

/-- V-E5. -/
theorem test_enc_big_endian :
    (nextState (exec .enc (encAt 4#3 1#1 0x12345678#32 0x9ABCDEF0#32))).map (fun t =>
      (t.status, [0, 1, 39, 40, 41, 42, 43, 44, 45, 46, 47].map t.txbuf.read)) =
    some (0x08#8, [0x23, 0x00, 0x00, 0x12, 0x34, 0x56, 0x78, 0x9A, 0xBC, 0xDE, 0xF0].map some) := by decide

/-- V-E6, with the version of V-E2. -/
theorem test_enc_transmit_off :
    (nextState (exec .enc (encAt 3#3 0#1 0x12345678#32 0x9ABCDEF0#32))).map (fun t =>
      [0, 40, 43, 44, 47].map t.txbuf.read) = some ([0x1B, 0x00, 0x00, 0x00, 0x00].map some) := by decide

/-- V-D1. -/
theorem test_dec_p1 :
    (nextState (exec .dec (loaded 48 packetP1))).map (fun t => (t.status, t.record)) =
    some (0x10#8,
      { flags := some 0x24, stratum := some 0x02, poll := some 0x06, precision := some 0xEC
        rootDelay := some 0x00000A3D, rootDisp := some 0x00001234, refId := some 0xC0A80001
        refSec := some 0xE93C7E00, refFrac := some 0x11111111, orgSec := some 0x12345678
        orgFrac := some 0x9ABCDEF0, rcvSec := some 0xE93C7F00, rcvFrac := some 0x40000000
        xmtSec := some 0xE93C7F00, xmtFrac := some 0x80000000 }) := by decide

/-- V-D7, V-D6, V-D8 and V-D2: mode before stratum, length before everything. -/
theorem test_dec_priority :
    [loaded 48 (packetK 0x23), loaded 48 (packetK 0x24), loaded 2 (packetK 0x24), loaded 47 packetP1].map (fun s =>
      (nextState (exec .dec s)).map State.status) =
    [some 0x02#8, some 0x03#8, some 0x01#8, some 0x01#8] := by decide

/-- V-C8. -/
theorem test_conv_2024 :
    (nextState (exec .conv (convAt 0xE93C7F00#32 0x80000000#32))).map (fun t => (t.status, t.epoch, t.subsec)) =
    some (0x20#8, some 0x65920080#32, some 0x80000000#32) := by decide

/-- V-C7 and V-C3: the comparison is unsigned, and the fraction plays no part in it. -/
theorem test_conv_before_epoch :
    [convAt 0x80000000#32 0#32, convAt 0x83AA7E7F#32 0xFFFFFFFF#32].map (fun s =>
      (nextState (exec .conv s)).map (fun t => (t.status, t.epoch))) =
    [some (0x04#8, none), some (0x04#8, none)] := by decide

/-! ## Witnesses: the hypotheses of each obligation can be met -/

theorem witness_ResetEventRestoresEverything : (pending .reset).inbox = .reset :: [] := rfl

theorem witness_ReservedCodesAreRefused :
    ∃ s t u : State, ∃ c d e : Byte, (c.toNat = 0 ∧ s.inbox = .host (cmdTxn (data 8 c.toNat)) :: []) ∧
      (d.toNat = 4 ∧ t.inbox = .host (cmdTxn (data 8 d.toNat)) :: []) ∧
      (e.toNat = 255 ∧ u.inbox = .host (cmdTxn (data 8 e.toNat)) :: []) :=
  ⟨pending (.host (cmdTxn (data 8 0))), pending (.host (cmdTxn (data 8 4))), pending (.host (cmdTxn (data 8 255))),
    0#8, 4#8, 255#8, by decide⟩

theorem witness_StepRunsDecodedCommand :
    decode 0x02#8 = .command .dec ∧
    (pending (.host (cmdTxn (data 8 (0x02#8).toNat)))).inbox = .host (cmdTxn (data 8 (0x02#8).toNat)) :: [] := by decide

theorem witness_FetchWordRunsTableCommand : decodeTableWord 8 3 = some .conv := by decide

theorem witness_IdleStepChangesNothing : State.reset.inbox = [] := rfl

theorem witness_EventsAreTakenInOrder : ∃ t, (pending (.host (.regRead .status))).inbox = .host (.regRead .status) :: [] ∧
      step (pending (.host (.regRead .status))) = .next t := ⟨_, rfl, rfl⟩

/-- A record of server mode and stratum 1, and a buffer that shows one. -/
theorem witness_WireFormatRoundTrips :
    (flagsMode (recordOf (imageByte packetP1)).flags = serverMode ∧ (recordOf (imageByte packetP1)).stratum ≠ 0#8) ∧
    flagsMode (imageByte packetP1 0) = serverMode ∧ imageByte packetP1 1 ≠ 0#8 := by decide

theorem witness_DecodeIgnoresLengthOrBytes :
    48 ≤ (48#16).toNat ∧ 48 ≤ (65535#16).toNat ∧ (47#16).toNat < 48 := by decide

theorem witness_StoredWordsAreBigEndian :
    (∀ k, k < 4 → (Memory.store [] 40 (wordBytes 0x12345678#32)).read (40 + k) =
      some ((fun a => imageByte [0x12, 0x34, 0x56, 0x78] (a - 40)) (40 + k))) ∧ (39 < 40 ∨ 44 ≤ 39) := by decide

theorem witness_FieldBytesAreSlices : (40 ≤ 40 ∧ 40 < 40 + 4) ∧ 40 ≤ 43 ∧ 43 < 40 + 4 := by decide

theorem witness_RequestIsNotAResponse :
    48 ≤ (loaded 48 (encodeRequest 4#3 0#1 0#32 0#32)).rxlen.toNat ∧
    ∀ a, a < 48 → (loaded 48 (encodeRequest 4#3 0#1 0#32 0#32)).rxbuf.read a =
      some (imageByte (encodeRequest 4#3 0#1 0#32 0#32) a) := by decide

theorem witness_EncFrame : ∃ t, exec .enc State.reset = .next t := ⟨_, rfl⟩

/-- One state for each clause: lengths 47 and 48, a mode that is not 4, a stratum 0, a good packet. -/
theorem witness_DecCommandRule :
    (loaded 47 packetP1).rxlen.toNat < 48 ∧
    (48 ≤ (loaded 48 (packetK 0x23)).rxlen.toNat ∧ ((loaded 48 (packetK 0x23)).rxByte 0).extractLsb' 0 3 ≠ 4#3) ∧
    (48 ≤ (loaded 48 (packetK 0x24)).rxlen.toNat ∧ ((loaded 48 (packetK 0x24)).rxByte 0).extractLsb' 0 3 = 4#3 ∧
      (loaded 48 (packetK 0x24)).rxByte 1 = 0#8) ∧
    48 ≤ (loaded 48 packetP1).rxlen.toNat ∧ ((loaded 48 packetP1).rxByte 0).extractLsb' 0 3 = 4#3 ∧
      (loaded 48 packetP1).rxByte 1 ≠ 0#8 := by decide

/-- P1 and V-D9: another length, `LI` and stratum, the same outcome. -/
theorem witness_DecChecksNothingElse :
    ∃ t t', exec .dec (loaded 48 packetP1) = .next t ∧ exec .dec (loaded 68 (packetWith 0xE4 0x01)) = .next t' ∧
      ((loaded 48 packetP1).rxlen.toNat < 48 ↔ (loaded 68 (packetWith 0xE4 0x01)).rxlen.toNat < 48) ∧
      flagsMode ((loaded 48 packetP1).rxByte 0) = flagsMode ((loaded 68 (packetWith 0xE4 0x01)).rxByte 0) ∧
      ((loaded 48 packetP1).rxByte 1 = 0#8 ↔ (loaded 68 (packetWith 0xE4 0x01)).rxByte 1 = 0#8) :=
  ⟨_, _, exec_dec_ok (p := recordOf (imageByte packetP1)) (by decide), exec_dec_ok
    (p := recordOf (imageByte (packetWith 0xE4 0x01))) (by decide), by decide⟩

theorem witness_ShortBufferIsNotRead : (47#16).toNat < 48 ∧ State.reset.rxlen.toNat < 48 := by decide

theorem witness_DecReadsOnlyFirst48Bytes :
    ∃ t t', exec .dec (loaded 48 packetP1) = .next t ∧ exec .dec (loaded 65535 packetP1) = .next t' ∧
      48 ≤ (loaded 48 packetP1).rxlen.toNat ∧ 48 ≤ (loaded 65535 packetP1).rxlen.toNat ∧
      ∀ a, a < 48 → (loaded 48 packetP1).rxByte a = (loaded 65535 packetP1).rxByte a :=
  ⟨_, _, exec_dec_ok (p := recordOf (imageByte packetP1)) (by decide), exec_dec_ok
    (p := recordOf (imageByte packetP1)) (by decide), by decide, by decide, fun _ _ => rfl⟩

theorem witness_RecordBytesAreTheWireBytes :
    ∃ t, exec .dec (loaded 48 packetP1) = .next t ∧ t.err = 0#3 ∧
      ∀ a, a < 48 → ((loaded 48 packetP1).rxbuf.read a).isSome :=
  ⟨_, exec_dec_ok (p := recordOf (imageByte packetP1)) (by decide), by decide, by decide⟩

theorem witness_DecFrame : ∃ t, exec .dec (loaded 48 packetP1) = .next t :=
  ⟨_, exec_dec_ok (p := recordOf (imageByte packetP1)) (by decide)⟩

/-- Both sides of the offset. -/
theorem witness_ConvCommandRule :
    (convAt 2208988799#32 0xFFFFFFFF#32).convSec.toNat < 2208988800 ∧
    2208988800 ≤ (convAt 2208988800#32 0#32).convSec.toNat := by decide

theorem witness_ToCalendarTimeIsTotal :
    toCalendarTime 2208988799#32 0xFFFFFFFF#32 = .error .beforeEpoch ∧ 2208988800 ≤ (2208988800#32).toNat := by decide

/-- V-L3, V-L5 and V-C3. -/
theorem witness_ConverterLaws :
    (2085978495#32).toNat ≤ 2085978495 ∧ 2208988800 ≤ (4294967295#32).toNat ∧
    ((pairValue 2208988800#32 0xFFFFFFFF#32).toNat ≤ (pairValue 2208988801#32 0#32).toNat ∧
      toCalendarTime 2208988800#32 0xFFFFFFFF#32 = .ok (0#32, 0xFFFFFFFF#32) ∧
      toCalendarTime 2208988801#32 0#32 = .ok (1#32, 0#32)) ∧
    toCalendarTime 2208988799#32 0#32 = .error .beforeEpoch ∧ (2208988798#32).toNat < (2208988799#32).toNat := by decide

/-- The first and last second of each clause. -/
theorem witness_ConvIsRightInEra0 :
    (InEra0 2208988800 ∧ (convAt 2208988800#32 0#32).convSec = secondsField 2208988800) ∧
    (InEra0 4294967295 ∧ (convAt 4294967295#32 0#32).convSec = secondsField 4294967295) ∧
    (4294967296 < 2 ^ 32 + 2208988800 ∧ (convAt 0#32 0#32).convSec = secondsField 4294967296) ∧
    6503956095 < 2 ^ 32 + 2208988800 ∧ (convAt 2208988799#32 0#32).convSec = secondsField 6503956095 := by
  simp only [InEra0]
  decide

/-- A block in which every result holds a value: the request of V-E1, the record of V-D1, the result of V-C6. -/
def full : State :=
  { State.reset with
    status := 0x38#8, txbuf := Memory.store [] 0 (encodeRequest 4#3 0#1 0#32 0#32), rxlen := 48#16
    rxbuf := Memory.store [] 0 packetP1, record := RecordRegs.ofPacket (recordOf (imageByte packetP1))
    convSec := 0xFFFFFFFF#32, convFrac := 0xFFFFFFFF#32, epoch := some 2085978495#32, subsec := some 0xFFFFFFFF#32 }

theorem full_inv : Inv full where
  status := ⟨by decide, by decide⟩
  transmit := ⟨fun h => absurd h (by decide),
    fun _ => ⟨by decide, ⟨4#3, by decide⟩, fun a h1 h2 => by interval_cases a <;> rfl⟩⟩
  record := ⟨fun h => absurd h (by decide), fun _ => ⟨_, rfl, by decide, by decide⟩⟩
  calendar := ⟨fun h => absurd h (by decide), fun _ => ⟨_, _, rfl, rfl, by decide⟩⟩
  txWf := by decide
  rxWf := by decide

/-- A block in which no result holds a value: CONV has failed straight after reset. -/
def failed : State := { State.reset with status := 0x04#8 }

theorem failed_inv : Inv failed where
  status := ⟨by decide, by decide⟩
  transmit := ⟨fun _ => rfl, fun h => absurd h (by decide)⟩
  record := ⟨fun _ => rfl, fun h => absurd h (by decide)⟩
  calendar := ⟨fun _ => ⟨rfl, rfl⟩, fun h => absurd h (by decide)⟩
  txWf := by decide
  rxWf := by decide

theorem witness_EpochReadsTheSameSigned : Inv full ∧ full.epoch = some 2085978495#32 := ⟨full_inv, rfl⟩

theorem witness_ConvFrame : ∃ t, exec .conv (convAt 2208988800#32 0#32) = .next t :=
  ⟨_, exec_conv_ok (toCalendarTime_after (by decide))⟩

theorem witness_RaisedErrorEffect : 11 ≤ Reg.recFlags.index ∧ 11 ≤ Reg.recXmtFrac.index := by decide

/-- V-D3 and V-C2: an error of each command that can end with one. -/
theorem witness_ErrorsArePrecise :
    (∃ t, exec .dec State.reset = .next t ∧ t.err ≠ 0#3) ∧ ∃ t, exec .conv State.reset = .next t ∧ t.err ≠ 0#3 :=
  ⟨⟨_, exec_dec_error (decodeResponse_short (by decide)), by decide⟩,
    ⟨_, exec_conv_error (toCalendarTime_before (by decide)), by decide⟩⟩

theorem witness_FlagsAreWrittenByTheirCommand :
    (∃ t, exec .enc full = .next t) ∧ (∃ t, exec .dec full = .next t) ∧ (∃ t, exec .conv full = .next t) ∧
    ((full.withInbox [.reset]).inbox = .reset :: [] ∧ ∃ t, step (full.withInbox [.reset]) = .next t) ∧
    ∃ t, step (pending (.host (cmdTxn (data 8 1)))) = .next t ∧
      t.status ≠ (pending (.host (cmdTxn (data 8 1)))).status :=
  ⟨⟨_, rfl⟩, ⟨_, exec_dec_ok (p := recordOf (imageByte packetP1)) (by decide)⟩,
    ⟨_, exec_conv_ok (toCalendarTime_after (by decide))⟩, ⟨rfl, _, rfl⟩, ⟨_, rfl, by decide⟩⟩

/-- One step for each clause: ENC, DEC, CONV, a write of an `RXBUF` byte, a write of `CFG_VN`. -/
theorem witness_OnlyTheNamedWritersWrite :
    (∃ t, step (pending (.host (cmdTxn (data 8 1)))) = .next t ∧ t.txbuf ≠ []) ∧
    (∃ t, step ((loaded 48 packetP1).withInbox [.host (cmdTxn (data 8 2))]) = .next t ∧
      t.record ≠ RecordRegs.noValue) ∧
    (∃ t, step ((convAt 2208988800#32 0#32).withInbox [.host (cmdTxn (data 8 3))]) = .next t ∧ t.epoch ≠ none) ∧
    (∃ t, step (pending (.host (.bufWrite .rx 47 (data 8 0)))) = .next t ∧ t.rxbuf ≠ []) ∧
    (Reg.cfgVn.access = .rw ∧ ∃ t, step (pending (.host (.regWrite .cfgVn (data 3 7)))) = .next t ∧
      t.regValue .cfgVn ≠ State.reset.regValue .cfgVn) :=
  ⟨⟨_, rfl, by decide⟩,
    ⟨_, exec_dec_ok (s := (loaded 48 packetP1).withInbox []) (p := recordOf (imageByte packetP1)) (by decide), by decide⟩,
    ⟨_, exec_conv_ok (s := (convAt 2208988800#32 0#32).withInbox []) (toCalendarTime_after (by decide)), by decide⟩,
    ⟨_, rfl, by decide⟩, rfl, _, rfl, by decide⟩

/-- Two states that agree on a command's operands and differ elsewhere. -/
theorem witness_NoHiddenState :
    (∃ t t', exec .enc State.reset = .next t ∧ exec .enc full = .next t' ∧ State.reset.cfgVn = full.cfgVn ∧
      State.reset.cfgTxen = full.cfgTxen ∧ State.reset.txSec = full.txSec ∧ State.reset.txFrac = full.txFrac) ∧
    (∃ t t', exec .dec (loaded 48 packetP1) = .next t ∧ exec .dec full = .next t' ∧
      (loaded 48 packetP1).rxlen = full.rxlen ∧ ∀ a, a < 48 → (loaded 48 packetP1).rxByte a = full.rxByte a) ∧
    ∃ t t', exec .conv State.reset = .next t ∧ exec .conv failed = .next t' ∧ State.reset.convSec = failed.convSec ∧
      State.reset.convFrac = failed.convFrac :=
  ⟨⟨_, _, rfl, rfl, rfl, rfl, rfl, rfl⟩,
    ⟨_, _, exec_dec_ok (p := recordOf (imageByte packetP1)) (by decide),
      exec_dec_ok (p := recordOf (imageByte packetP1)) (by decide), rfl, fun _ _ => rfl⟩,
    ⟨_, _, exec_conv_error (toCalendarTime_before (by decide)), exec_conv_error (toCalendarTime_before (by decide)),
      rfl, rfl⟩⟩

/-- DEC on a full buffer, twice; a short buffer meets the premise too. -/
theorem witness_RepeatedCommandsChangeNothing :
    ((loaded 48 packetP1).txbuf.wf = true ∧ (∀ a, a < 48 → ((loaded 48 packetP1).rxbuf.read a).isSome) ∧
      ∃ t u, exec .dec (loaded 48 packetP1) = .next t ∧ exec .dec t = .next u) ∧
    State.reset.rxlen.toNat < 48 :=
  ⟨⟨by decide, by decide, _, _, exec_dec_ok (p := recordOf (imageByte packetP1)) (by decide),
    exec_dec_ok (p := recordOf (imageByte packetP1)) (by decide)⟩, by decide⟩

/-- A state with every result, and one with none; each takes a command. -/
theorem witness_EveryStepKeepsTheInvariant :
    (Inv full ∧ ∃ t, step full = .next t) ∧ Inv failed ∧
    ∃ t, step (failed.withFetchWord 8 1) = .next t := ⟨⟨full_inv, _, rfl⟩, failed_inv, _, rfl⟩

theorem witness_ValidFlagsSayWhatCanBeRead :
    (Inv full ∧ full.tvalid = true ∧ full.rvalid = true ∧ full.cvalid = true) ∧
    (Inv failed ∧ failed.tvalid = false ∧ failed.rvalid = false ∧ failed.cvalid = false) ∧
    11 ≤ Reg.recFlags.index :=
  ⟨⟨full_inv, by decide, by decide, by decide⟩, ⟨failed_inv, by decide, by decide, by decide⟩, by decide⟩

theorem witness_AccessRights :
    (Reg.status.access ≠ .wo ∧ full.regValue .status = some (data 8 0x38)) ∧
    (Reg.cfgVn.access = .rw ∧ (data 3 7).fits Reg.cfgVn.width = true) ∧
    full.txbuf.read 47 = some 0#8 ∧ (data 8 255).fits 8 = true ∧ Reg.epoch.access = .ro ∧
    (Reg.cmd.access ≠ .ro ∧ (data 9 1).fits Reg.cmd.width = false) ∧
    (data 3 8).fits Reg.cfgVn.width = false ∧ (data 16 0).fits 8 = false ∧
    (Reg.recXmtFrac.access ≠ .wo ∧ State.reset.regValue .recXmtFrac = none) ∧ State.reset.txbuf.read 47 = none ∧
    (0#8).toNat = 0 ∧ 4 ≤ (4#8).toNat ∧ 4 ≤ (255#8).toNat := by decide

/-- Both sides of the equivalence: the command codes 1 and 3 and the address 47 of a written `TXBUF` are legal, and so is a
reset; the codes 0 and 4 and the address 48 are not, nor is the address 47 straight after reset. -/
theorem witness_StepCompletesExactlyOnLegalEvents :
    ((pending (.host (cmdTxn (data 8 1)))).inbox = .host (cmdTxn (data 8 1)) :: [] ∧
      (pending .reset).inbox = .reset :: []) ∧
    ((Event.host (cmdTxn (data 8 1))).legal State.reset ∧ (Event.host (cmdTxn (data 8 3))).legal State.reset ∧
      (Event.host (.bufRead .tx 47)).legal full ∧ Event.reset.legal State.reset) ∧
    ¬ (Event.host (cmdTxn (data 8 0))).legal State.reset ∧ ¬ (Event.host (cmdTxn (data 8 4))).legal State.reset ∧
    ¬ (Event.host (.bufRead .tx 48)).legal full ∧ ¬ (Event.host (.bufRead .tx 47)).legal State.reset := by
  simp only [cmdTxn, Event.legal]
  decide

theorem witness_HostWritesOneCell :
    (Reg.rxlen.access = .rw ∧ (data 16 65535).fits Reg.rxlen.width = true) ∧ 47 < 48 := by decide

theorem witness_HostReadsChangeNothing :
    (∃ t, perform (.regRead .epoch) full = .next t) ∧ (∃ t, perform (.bufRead .tx 47) full = .next t) ∧
    (∃ t, perform (.bufRead .rx 47) full = .next t ∧ full.rxbuf.read 47 = some 0#8) ∧
    ∃ t, perform (.bufRead .rx 0) State.reset = .next t := ⟨⟨_, rfl⟩, ⟨_, rfl⟩, ⟨_, rfl, by decide⟩, _, rfl⟩

theorem witness_NoOtherAddressAndNoSecondHost :
    48 ≤ 48 ∧ (pending (.secondHost (.regRead .status))).inbox = .secondHost (.regRead .status) :: [] := by decide

theorem witness_NumericViews : (0x7FFFFFFF#32).toNat < 2 ^ 31 := by decide

theorem witness_StatusWordIsItsFields : unusedField full.status = 0#2 := by decide

/-! ### The host's sequence -/

/-- A configuration with one retry. -/
def cfg : SyncConfig := { serverAddress := 1, timeoutMs := 500, maxRetries := 1, version := none, transmit := none }

/-- A call in the given phase. -/
def callAt (p : SyncPhase) (b : State) (net : List NetEvent) : SyncState :=
  { SyncState.start cfg b [] [] net with phase := p }

/-- A call that waits for its response, at the local port 49152. -/
def waiting (net : List NetEvent) : SyncState :=
  { callAt .awaitingResponse State.reset net with
    endpoint := some (.waiting 49152), acquired := 1, transmitInstant := some (localClock 0), clockReads := 1 }

/-- A call whose endpoint is open and whose lower layer cannot send. -/
def unableToSend : SyncState :=
  { callAt .awaitingResponse State.reset [] with endpoint := some (.opened 49152), acquired := 1, sends := [false] }

theorem witness_RequestingReadsTheConfiguredRequest : (callAt .requesting full []).phase = .requesting := rfl

/-- A datagram of 47 bytes, and one of 68. -/
theorem witness_ResponseGoesToTheReceiveBuffer :
    ((waiting [.datagram 1 123 (packetP1.take 47)]).phase = .awaitingResponse ∧
      (waiting [.datagram 1 123 (packetP1.take 47)]).endpoint = some (.waiting 49152) ∧
      (waiting [.datagram 1 123 (packetP1.take 47)]).net =
        .datagram cfg.serverAddress cfg.port (packetP1.take 47) :: []) ∧
    (waiting [.datagram 1 123 (packetP1 ++ List.replicate 20 0)]).net =
      .datagram cfg.serverAddress cfg.port (packetP1 ++ List.replicate 20 0) :: [] := ⟨⟨rfl, rfl, rfl⟩, rfl⟩

/-- Another address, and another port of the same address. -/
theorem witness_ForeignDatagramsDoNotEndTheWait :
    ((waiting [.datagram 2 123 packetP1]).phase = .awaitingResponse ∧
      (waiting [.datagram 2 123 packetP1]).endpoint = some (.waiting 49152) ∧
      (waiting [.datagram 2 123 packetP1]).net = .datagram 2 123 packetP1 :: [] ∧ 2 ≠ cfg.serverAddress) ∧
    (waiting [.datagram 1 124 packetP1]).net = .datagram 1 124 packetP1 :: [] ∧ 124 ≠ cfg.port :=
  ⟨⟨rfl, rfl, rfl, by decide⟩, rfl, by decide⟩

/-- A receive failure, and a failure to send. -/
theorem witness_EndpointsAreReleased :
    (EndpointOk (waiting [.ioFailure]) ∧ ∃ t, syncStep (waiting [.ioFailure]) = .next t) ∧
    EndpointOk unableToSend ∧ ∃ t, syncStep unableToSend = .next t :=
  ⟨⟨⟨rfl, fun h => absurd rfl h⟩, _, rfl⟩, ⟨rfl, fun h => absurd rfl h⟩, _, rfl⟩

/-- An elapsed deadline and two datagrams from elsewhere. -/
theorem witness_NeverRespondingTransportTimesOut :
    false ∉ [true] ∧ false ∉ ([] : List Bool) ∧
    ∀ e ∈ [NetEvent.datagram 2 123 packetP1, .datagram 1 124 [], .deadline], e.isResponse cfg = false ∧ e ≠ .ioFailure := by
  decide

/-- A call that waits, with its response next. -/
theorem witness_LocalInstantsAreOrdered :
    InstantsOk (waiting [.datagram 1 123 packetP1]) ∧ ∃ t, syncStep (waiting [.datagram 1 123 packetP1]) = .next t ∧
      t.phase = .validating :=
  ⟨⟨fun _ h => Option.some.inj h ▸ Nat.le_add_right _ _, fun _ _ => rfl, nofun⟩, _, rfl, rfl⟩

/-- An open endpoint, with nothing said of the sends to come and with a send that succeeds next. -/
theorem witness_RequestGoesOutAsOneDatagram :
    unableToSend.phase = .awaitingResponse ∧ unableToSend.endpoint = some (.opened 49152) ∧
    ({ unableToSend with sends := [] } : SyncState).sends.head? ≠ some false ∧
    ({ unableToSend with sends := [true] } : SyncState).sends.head? ≠ some false := by decide

/-- One state for each kind of failure, with a retry left; the configuration has one retry, so with it used none is. -/
theorem witness_TransientFailuresAreRetried :
    (unableToSend.phase = .awaitingResponse ∧ unableToSend.endpoint = some (.opened 49152) ∧
      unableToSend.sends.head? = some false ∧ unableToSend.retries < unableToSend.cfg.maxRetries) ∧
    (waiting [.ioFailure]).net.head? = some .ioFailure ∧ (waiting [.deadline]).net.head? = some .deadline ∧
    ({ unableToSend with retries := 1 } : SyncState).cfg.maxRetries ≤ ({ unableToSend with retries := 1 } : SyncState).retries := by
  decide

/-- A short response being validated, and an accepted one being converted. -/
theorem witness_StructuralFailuresAreNotRetried :
    ((callAt .validating State.reset []).phase = .validating ∧
      ∃ t, syncStep (callAt .validating State.reset []) = .next t) ∧
    (callAt .converting full []).phase = .converting ∧ ∃ t, syncStep (callAt .converting full []) = .next t :=
  ⟨⟨rfl, _, rfl⟩, rfl, _, rfl⟩

/-- K: a kiss-of-death. -/
theorem witness_RejectedResponseEndsTheCall :
    (callAt .validating (loaded 48 (packetK 0x24)) []).phase = .validating ∧
    decodeResponse (loaded 48 (packetK 0x24)).rxlen (loaded 48 (packetK 0x24)).rxByte = .error .kissOfDeath :=
  ⟨rfl, by decide⟩

/-- The highest stratum and the lowest transmit second the host and CONV accept. -/
theorem witness_AcceptedResponseSucceeds :
    DecAccepts (loaded 48 ((packetWith 0x24 0x0F).take 40 ++ [0x83, 0xAA, 0x7E, 0x80, 0, 0, 0, 0])) ∧
    ((loaded 48 ((packetWith 0x24 0x0F).take 40 ++ [0x83, 0xAA, 0x7E, 0x80, 0, 0, 0, 0])).rxByte 1).toNat ≤ 15 ∧
    2208988800 ≤
      bigEndian (loaded 48 ((packetWith 0x24 0x0F).take 40 ++ [0x83, 0xAA, 0x7E, 0x80, 0, 0, 0, 0])).rxByte 40 := by
  simp only [DecAccepts]
  decide

/-- V-H2, V-H3 and, at the boundary, a stratum of 15. -/
theorem witness_SanityChecksInOrder :
    (DecAccepts (loaded 48 (packetP1.take 40 ++ List.replicate 8 0)) ∧
      bigEndian (loaded 48 (packetP1.take 40 ++ List.replicate 8 0)).rxByte 40 = 0 ∧
      bigEndian (loaded 48 (packetP1.take 40 ++ List.replicate 8 0)).rxByte 44 = 0) ∧
    (DecAccepts (loaded 48 (packetWith 0x24 0x10)) ∧
      ¬ bigEndian (loaded 48 (packetWith 0x24 0x10)).rxByte 40 = 0 ∧
      16 ≤ ((loaded 48 (packetWith 0x24 0x10)).rxByte 1).toNat) ∧
    DecAccepts (loaded 48 (packetWith 0x24 0x0F)) ∧
    ¬ bigEndian (loaded 48 (packetWith 0x24 0x0F)).rxByte 40 = 0 ∧
    ((loaded 48 (packetWith 0x24 0x0F)).rxByte 1).toNat ≤ 15 := by
  simp only [DecAccepts]
  decide

end Sys2Proof.Tests
end

/-!
PROOFS. The family 10_state.md: what a step can change, which command writes which flag, and the invariant of the block.
-/

namespace Sys2Proof.Machine

/-! ### What a step can change -/

/-- A step that changes anything at all has taken an event. -/
theorem step_effect_of_ne {s t : State} (h : step s = .next t) (hne : t ≠ s) :
    ∃ e rest, s.inbox = e :: rest ∧ EventEffect e (s.withInbox rest) t := by
  rcases step_next h with ⟨-, rfl⟩ | he
  · exact absurd rfl hne
  · exact he

/-- The only byte that decodes to a command is its code (30_encoding.md R110). -/
theorem eq_encode_of_decode {c : Byte} {i : Instr} (h : decode c = .command i) : c = encode i := by
  cases i <;> revert c <;> decide

/-- Data that decodes to a command is the code of that command and no other (30_encoding.md R110). -/
theorem data_eq_encode {d : Data} {i : Instr} (hd : d.fits 8 = true)
    (hi : decode (BitVec.ofNat 8 d.value) = .command i) : d = { width := 8, value := (encode i).toNat } := by
  obtain ⟨hw, hv⟩ := Data.fits_iff.mp hd
  have hval : d.value = (encode i).toNat := by
    rw [← eq_encode_of_decode hi, BitVec.toNat_ofNat, Nat.mod_eq_of_lt hv]
  cases d
  simp_all

/-- Who can change the results and `STATUS`: a reset, a command, and nothing else (10_state.md R21, R30). -/
theorem EventEffect.results {e : Event} {s t : State} (h : EventEffect e s t) :
    e = .reset ∨ (∃ i, e = .host (commandTxn i) ∧ exec i s = .next t) ∨
    (t.status = s.status ∧ t.txbuf = s.txbuf ∧ t.record = s.record ∧ t.epoch = s.epoch ∧ t.subsec = s.subsec) := by
  cases h with
  | command i d he hd hi ht =>
    obtain rfl := data_eq_encode hd hi
    exact .inr (.inl ⟨i, he, ht⟩)
  | store r d he hr hd ht =>
    obtain ⟨hst, hrec, hep, hsub⟩ := storeReg_results s r d.value
    exact .inr (.inr (ht ▸ ⟨hst, (storeReg_rest s r d.value).1, hrec, hep, hsub⟩))
  | read r d he hr hv ht => exact .inr (.inr (by simp [ht]))
  | putByte a d he ha hd ht => exact .inr (.inr (by simp [ht]))
  | getByte sp a b n he ha ht => exact .inr (.inr (by simp [ht]))
  | reset he ht => exact .inl he

/-- Who can change `RXBUF`: a reset, the host's `BufWrite`, and nothing else (10_state.md R37). -/
theorem EventEffect.rxbuf {e : Event} {s t : State} (h : EventEffect e s t) :
    e = .reset ∨ (∃ a d, e = .host (.bufWrite .rx a d)) ∨ t.rxbuf = s.rxbuf := by
  cases h with
  | command i d he hd hi ht =>
    obtain ⟨-, -, -, -, hrx, -⟩ := exec_keeps ht
    exact .inr (.inr hrx)
  | store r d he hr hd ht => exact .inr (.inr (ht ▸ (storeReg_rest s r d.value).2.1))
  | read r d he hr hv ht => exact .inr (.inr (by simp [ht]))
  | putByte a d he ha hd ht => exact .inr (.inl ⟨a, d, he⟩)
  | getByte sp a b n he ha ht => exact .inr (.inr (by simp [ht]))
  | reset he ht => exact .inl he

/-- No command changes a register the host may write (10_state.md R21). -/
theorem exec_regValue_rw {i : Instr} {s t : State} {r : Reg} (h : exec i s = .next t) (hr : r.access = .rw) :
    t.regValue r = s.regValue r := by
  obtain ⟨hvn, hen, hsec, hfrac, -, hlen, hcs, hcf, -⟩ := exec_keeps h
  cases r <;> simp only [Reg.access, reduceCtorEq] at hr <;>
    simp only [State.regValue, hvn, hen, hsec, hfrac, hlen, hcs, hcf]

/-- Who can change a register the host may write: a reset, the host's write of that register, and nothing else
(10_state.md R21). -/
theorem EventEffect.operand {e : Event} {s t : State} (h : EventEffect e s t) {r : Reg} (hr : r.access = .rw) :
    e = .reset ∨ (∃ d, e = .host (.regWrite r d)) ∨ t.regValue r = s.regValue r := by
  cases h with
  | command i d he hd hi ht => exact .inr (.inr (exec_regValue_rw ht hr))
  | store r' d he hr' hd ht =>
    by_cases hrr : r = r'
    · exact .inr (.inl ⟨d, hrr ▸ he⟩)
    · exact .inr (.inr (ht ▸ storeReg_other d.value hrr))
  | read r' d he hr' hv ht => exact .inr (.inr (ht ▸ rfl))
  | putByte a d he ha hd ht => exact .inr (.inr (ht ▸ rfl))
  | getByte sp a b n he ha ht => exact .inr (.inr (ht ▸ rfl))
  | reset he ht => exact .inl he

/-! ### What each command writes to `STATUS` -/

/-- A raised `DecodeError` writes its code and `RVALID`, and no other flag (60_exceptions.md R216). -/
theorem raise_decode_flags (d : DecodeError) (s : State) :
    (raise (.decode d) s).err = errorCode (.decode d) ∧ (raise (.decode d) s).rvalid = false ∧
    (raise (.decode d) s).tvalid = s.tvalid ∧ (raise (.decode d) s).cvalid = s.cvalid := by
  simp [raise_decode]

/-- A raised `BeforeEpoch` writes its code and `CVALID`, and no other flag (60_exceptions.md R216). -/
theorem raise_conversion_flags (c : ConversionError) (s : State) :
    (raise (.conversion c) s).err = errorCode (.conversion c) ∧ (raise (.conversion c) s).cvalid = false ∧
    (raise (.conversion c) s).tvalid = s.tvalid ∧ (raise (.conversion c) s).rvalid = s.rvalid := by
  simp [raise_conversion]

/-- ENC reports success and sets `TVALID` (40_packet_codec.md R135). -/
theorem exec_enc_flags {s t : State} (h : exec .enc s = .next t) :
    t.err = 0#3 ∧ t.tvalid = true ∧ t.rvalid = s.rvalid ∧ t.cvalid = s.cvalid := by
  rw [next_unique (exec_enc s) h]
  simp [successCode]

/-- The code a raised `DecodeError` leaves is 1, 2 or 3 (30_encoding.md R112). -/
theorem raise_decode_outcome (d : DecodeError) (s : State) :
    ((raise (.decode d) s).err.toNat ∈ [1, 2, 3] ∧ (raise (.decode d) s).rvalid = false) ∧
    (raise (.decode d) s).tvalid = s.tvalid ∧ (raise (.decode d) s).cvalid = s.cvalid := by
  obtain ⟨hcode, hr, hkept⟩ := raise_decode_flags d s
  exact ⟨⟨hcode ▸ by cases d <;> decide, hr⟩, hkept⟩

/-- DEC reports success with `RVALID` or one of its three errors without it (40_packet_codec.md R144, R145). -/
theorem exec_dec_flags {s t : State} (h : exec .dec s = .next t) :
    (t.err = 0#3 ∧ t.rvalid = true ∨ t.err.toNat ∈ [1, 2, 3] ∧ t.rvalid = false) ∧
    t.tvalid = s.tvalid ∧ t.cvalid = s.cvalid := by
  rcases exec_dec_cases s with ⟨-, e⟩ | ⟨-, -, e⟩ | ⟨-, -, -, e⟩ | ⟨-, -, -, e⟩ <;> rw [next_unique e h]
  · exact (raise_decode_outcome _ s).imp_left .inr
  · exact (raise_decode_outcome _ s.nextDraw).imp_left .inr
  · exact (raise_decode_outcome _ s.nextDraw).imp_left .inr
  · simp [successCode]

/-- CONV reports success with `CVALID` or `BeforeEpoch` without it (41_time_converter.md R165). -/
theorem exec_conv_flags {s t : State} (h : exec .conv s = .next t) :
    (t.err = 0#3 ∧ t.cvalid = true ∨ t.err = 4#3 ∧ t.cvalid = false) ∧
    t.tvalid = s.tvalid ∧ t.rvalid = s.rvalid := by
  rcases exec_conv_cases s with ⟨-, e⟩ | ⟨-, e⟩ <;> rw [next_unique e h]
  · obtain ⟨hcode, hc, hkept⟩ := raise_conversion_flags .beforeEpoch s
    exact ⟨.inr ⟨hcode, hc⟩, hkept⟩
  · simp [successCode]

/-! ### The invariant, clause by clause -/

/-- The clause on `STATUS` speaks of bits 7:6 and of `ERR` only. -/
theorem StatusOk.of_fields {s t : State} (h : StatusOk s) (hu : unusedField t.status = unusedField s.status)
    (he : t.err.toNat ≤ 4) : StatusOk t := ⟨hu.trans h.1, he⟩

/-- The clause on the request speaks of `TVALID` and `TXBUF` only. -/
theorem TransmitOk.congr {s t : State} (h : TransmitOk s) (hv : t.tvalid = s.tvalid) (hb : t.txbuf = s.txbuf) :
    TransmitOk t := by rwa [TransmitOk, hv, hb]

/-- The clause on the record speaks of `RVALID` and the record only. -/
theorem RecordOk.congr {s t : State} (h : RecordOk s) (hv : t.rvalid = s.rvalid) (hr : t.record = s.record) :
    RecordOk t := by rwa [RecordOk, hv, hr]

/-- The clause on the calendar time speaks of `CVALID`, `EPOCH` and `SUBSEC` only. -/
theorem CalendarOk.congr {s t : State} (h : CalendarOk s) (hv : t.cvalid = s.cvalid) (he : t.epoch = s.epoch)
    (hq : t.subsec = s.subsec) : CalendarOk t := by rwa [CalendarOk, hv, he, hq]

/-- Whatever leaves `STATUS` and the results, and `RXBUF` in canonical form, keeps the invariant. -/
theorem Inv.congr {s t : State} (h : Inv s) (hst : t.status = s.status) (htx : t.txbuf = s.txbuf)
    (hrec : t.record = s.record) (hep : t.epoch = s.epoch) (hsub : t.subsec = s.subsec) (hrx : t.rxbuf.wf = true) :
    Inv t where
  status := by simpa [StatusOk, hst] using h.status
  transmit := h.transmit.congr (by simp [hst]) htx
  record := h.record.congr (by simp [hst]) hrec
  calendar := h.calendar.congr (by simp [hst]) hep hsub
  txWf := htx ▸ h.txWf
  rxWf := hrx

/-- At reset both buffers are empty and nothing holds a result (10_state.md R42). -/
theorem inv_reset : Inv State.reset where
  status := ⟨by decide, by decide⟩
  transmit := ⟨fun _ => rfl, nofun⟩
  record := ⟨fun _ => rfl, nofun⟩
  calendar := ⟨fun _ => ⟨rfl, rfl⟩, nofun⟩
  txWf := rfl
  rxWf := rfl

/-! ### The invariant through the commands -/

/-- After ENC the buffer shows the request of its operands, whatever it held before (40_packet_codec.md R135). -/
theorem exec_enc_txbuf {s t : State} (h : exec .enc s = .next t) {a : Nat} (ha : a < 48) :
    t.txbuf.read a = some (imageByte (encodeRequest s.cfgVn s.cfgTxen s.txSec s.txFrac) a) := by
  rw [next_unique (exec_enc s) h, withStatus_txbuf, withTxbuf_txbuf, encodeInto_read _ _ _ _ _ _ ha]

/-- A buffer that shows a request is what `TVALID` promises (40_packet_codec.md R132). -/
theorem transmitOk_of_request {t : State} {vn : BitVec 3} {txen : BitVec 1} {sec frac : Word} (hv : t.tvalid = true)
    (hb : ∀ a, a < 48 → t.txbuf.read a = some (imageByte (encodeRequest vn txen sec frac) a)) : TransmitOk t := by
  refine ⟨fun hf => absurd (hv.symm.trans hf) nofun, fun _ => ⟨fun a ha => ?_, ⟨vn, ?_⟩, fun a h1 h40 => ?_⟩⟩
  · rw [hb a ha, Option.isSome_some]
  · rw [hb 0 (by omega), encodeRequest_byte _ _ _ _ _ (by omega), if_pos rfl]
  · rw [hb a (by omega), encodeRequest_byte _ _ _ _ _ (by omega), if_neg (by omega), if_pos h40]

/-- ENC writes a whole request and sets `TVALID` with it. -/
theorem inv_exec_enc {s t : State} (hi : Inv s) (h : exec .enc s = .next t) : Inv t := by
  obtain ⟨herr, hv, hr, hc⟩ := exec_enc_flags h
  obtain ⟨-, hrec, hcal⟩ := exec_other_results h
  obtain ⟨hep, hsub⟩ := hcal nofun
  have ht := next_unique (exec_enc s) h
  exact
    { status := hi.status.of_fields (by simp [ht]) (by rw [herr]; decide)
      transmit := transmitOk_of_request hv fun a => exec_enc_txbuf h
      record := hi.record.congr hr (hrec nofun)
      calendar := hi.calendar.congr hc hep hsub
      txWf := by rw [ht, withStatus_txbuf, withTxbuf_txbuf]; exact encodeInto_wf _ _ _ _ hi.txWf
      rxWf := by rw [ht, withStatus_rxbuf, withTxbuf_rxbuf]; exact hi.rxWf }

/-- A new draw of unspecified bytes is nothing to the invariant. -/
theorem inv_nextDraw {s : State} (hi : Inv s) : Inv s.nextDraw := hi.congr rfl rfl rfl rfl rfl hi.rxWf

/-- An error takes the command's result away together with its valid flag (60_exceptions.md R216). -/
theorem inv_raise (e : BlockError) {s : State} (hi : Inv s) : Inv (raise e s) := by
  cases e with
  | decode d =>
    obtain ⟨hcode, hr, ht, hc⟩ := raise_decode_flags d s
    exact
      { status := hi.status.of_fields (by simp [raise_decode]) (hcode ▸ errorCode_le _)
        transmit := hi.transmit.congr ht rfl
        record := ⟨fun _ => rfl, fun hf => absurd (hr.symm.trans hf) nofun⟩
        calendar := hi.calendar.congr hc rfl rfl
        txWf := hi.txWf
        rxWf := hi.rxWf }
  | conversion c =>
    obtain ⟨hcode, hc, ht, hr⟩ := raise_conversion_flags c s
    exact
      { status := hi.status.of_fields (by simp [raise_conversion]) (hcode ▸ errorCode_le _)
        transmit := hi.transmit.congr ht rfl
        record := hi.record.congr hr rfl
        calendar := ⟨fun _ => ⟨rfl, rfl⟩, fun hf => absurd (hc.symm.trans hf) nofun⟩
        txWf := hi.txWf
        rxWf := hi.rxWf }

/-- DEC either raises an error or writes a whole record that passed its checks. -/
theorem inv_exec_dec {s t : State} (hi : Inv s) (h : exec .dec s = .next t) : Inv t := by
  rcases exec_dec_cases s with ⟨-, e⟩ | ⟨-, -, e⟩ | ⟨-, -, -, e⟩ | ⟨-, hmode, hstratum, e⟩ <;>
    obtain rfl := next_unique e h
  · exact inv_raise _ hi
  · exact inv_raise _ (inv_nextDraw hi)
  · exact inv_raise _ (inv_nextDraw hi)
  · exact
      { status := hi.status.of_fields (by simp) (by simp [successCode])
        transmit := hi.transmit.congr (by simp) rfl
        record := ⟨fun hf => by simp at hf, fun _ => ⟨_, rfl, hmode, hstratum⟩⟩
        calendar := hi.calendar.congr (by simp) rfl rfl
        txWf := hi.txWf
        rxWf := hi.rxWf }

/-- The epoch seconds CONV gives are at most 2,085,978,495 (41_time_converter.md R163). -/
theorem sub_epochOffset_le {s : Word} (h : 2208988800 ≤ s.toNat) : (s - epochOffset).toNat ≤ 2085978495 := by
  have := s.isLt
  rw [sub_epochOffset_toNat h]
  omega

/-- CONV either raises an error or writes seconds that are in range. -/
theorem inv_exec_conv {s t : State} (hi : Inv s) (h : exec .conv s = .next t) : Inv t := by
  rcases exec_conv_cases s with ⟨-, e⟩ | ⟨hsec, e⟩ <;> obtain rfl := next_unique e h
  · exact inv_raise _ hi
  · exact
      { status := hi.status.of_fields (by simp) (by simp [successCode])
        transmit := hi.transmit.congr (by simp) rfl
        record := hi.record.congr (by simp) rfl
        calendar := ⟨fun hf => by simp at hf, fun _ => ⟨_, _, rfl, rfl, sub_epochOffset_le hsec⟩⟩
        txWf := hi.txWf
        rxWf := hi.rxWf }

/-- Every command keeps the invariant. -/
theorem inv_exec {i : Instr} {s t : State} (hi : Inv s) (h : exec i s = .next t) : Inv t := by
  cases i with
  | enc => exact inv_exec_enc hi h
  | dec => exact inv_exec_dec hi h
  | conv => exact inv_exec_conv hi h

/-- Every completed event keeps the invariant. -/
theorem EventEffect.keeps_inv {e : Event} {s t : State} (h : EventEffect e s t) (hi : Inv s) : Inv t := by
  cases h with
  | command i d he hd hc ht => exact inv_exec hi ht
  | store r d he hr hd ht =>
    obtain ⟨hst, hrec, hep, hsub⟩ := storeReg_results s r d.value
    obtain ⟨htx, hrx, -⟩ := storeReg_rest s r d.value
    exact ht ▸ hi.congr hst htx hrec hep hsub (hrx ▸ hi.rxWf)
  | read r d he hr hv ht => exact ht ▸ hi.congr rfl rfl rfl rfl rfl hi.rxWf
  | putByte a d he ha hd ht => exact ht ▸ hi.congr rfl rfl rfl rfl rfl (Memory.wf_write _ hi.rxWf ha)
  | getByte sp a b n he ha ht => exact ht ▸ hi.congr rfl rfl rfl rfl rfl hi.rxWf
  | reset he ht => exact ht ▸ inv_reset.congr rfl rfl rfl rfl rfl rfl

/-- Settles O41: an idle step changes nothing, and every event keeps the invariant. -/
theorem everyStepKeepsTheInvariant : Obligations.EveryStepKeepsTheInvariant := by
  intro s t hi h
  rcases step_next h with ⟨-, rfl⟩ | ⟨e, rest, -, heff⟩
  · exact hi
  · exact heff.keeps_inv (hi.congr rfl rfl rfl rfl rfl hi.rxWf)

/-- Settles O40: no result holds a value, and no valid flag says so. -/
theorem invariantHoldsAtReset : Obligations.InvariantHoldsAtReset := inv_reset

/-- Settles O30: a state of the invariant holds an `EPOCH` only with `CVALID` 1, and then it is at most 2,085,978,495. -/
theorem epochReadsTheSameSigned : Obligations.EpochReadsTheSameSigned := by
  intro s e hi he
  obtain ⟨hinvalid, hvalid⟩ := hi.calendar
  have hle : e.toNat ≤ 2085978495 := by
    cases hc : s.cvalid with
    | false => exact absurd (he.symm.trans (hinvalid hc).1) nofun
    | true =>
      obtain ⟨e', q, he', -, hle⟩ := hvalid hc
      obtain rfl : e = e' := Option.some.inj (he.symm.trans he')
      exact hle
  exact ⟨by omega, BitVec.toInt_eq_toNat_of_lt (by omega)⟩

/-! ### Who writes what -/

/-- Settles O35: the flags each command leaves, and that what changes `STATUS` is a command or a reset. -/
theorem flagsAreWrittenByTheirCommand : Obligations.FlagsAreWrittenByTheirCommand := by
  refine ⟨fun s t => exec_enc_flags, fun s t => exec_dec_flags, fun s t => exec_conv_flags, ?_, ?_⟩
  · intro s t rest hinbox h
    rw [step_cons hinbox] at h
    obtain rfl := next_unique (s := applyReset (s.withInbox rest)) rfl h
    rfl
  · intro s t h hne
    obtain ⟨e, rest, hinbox, heff⟩ := step_effect_of_ne h (ne_of_apply_ne State.status hne)
    rcases heff.results with rfl | ⟨i, rfl, -⟩ | ⟨hst, -⟩
    · exact ⟨rest, .inl hinbox⟩
    · exact ⟨rest, .inr ⟨_, hinbox⟩⟩
    · exact absurd hst hne


/-- A result is written by a reset, by its own command `i`, and by nothing else (10_state.md R21). -/
theorem step_writer {α : Type} (f : State → α) (i : Instr) {s t : State} (h : step s = .next t) (hne : f t ≠ f s)
    (hother : ∀ j rest, exec j (s.withInbox rest) = .next t → j ≠ i → f t = f s)
    (hkept : t.txbuf = s.txbuf ∧ t.record = s.record ∧ t.epoch = s.epoch ∧ t.subsec = s.subsec → f t = f s) :
    ∃ rest, s.inbox = .reset :: rest ∨ s.inbox = .host (commandTxn i) :: rest := by
  obtain ⟨e, rest, hinbox, heff⟩ := step_effect_of_ne h (ne_of_apply_ne f hne)
  rcases heff.results with rfl | ⟨j, rfl, hex⟩ | ⟨-, hres⟩
  · exact ⟨rest, .inl hinbox⟩
  · by_cases hj : j = i
    · exact ⟨rest, .inr (hj ▸ hinbox)⟩
    · exact absurd (hother j rest hex hj) hne
  · exact absurd (hkept hres) hne

/-- Settles O36: a changed result, buffer or operand names the event that changed it. -/
theorem onlyTheNamedWritersWrite : Obligations.OnlyTheNamedWritersWrite := by
  intro s t h
  refine ⟨fun hne => ?_, fun hne => ?_, fun hne => ?_, fun hne => ?_, fun r hr hne => ?_⟩
  · exact step_writer State.txbuf .enc h hne (fun _ _ hex => (exec_other_results hex).1) fun ⟨htx, _⟩ => htx
  · exact step_writer State.record .dec h hne (fun _ _ hex => (exec_other_results hex).2.1) fun ⟨_, hrec, _⟩ => hrec
  · have hpair : (t.epoch, t.subsec) ≠ (s.epoch, s.subsec) := fun heq =>
      hne.elim (absurd (congrArg Prod.fst heq)) (absurd (congrArg Prod.snd heq))
    exact step_writer (fun u => (u.epoch, u.subsec)) .conv h hpair
      (fun _ _ hex hj => Prod.ext_iff.mpr ((exec_other_results hex).2.2 hj)) fun ⟨_, _, hcal⟩ => Prod.ext_iff.mpr hcal
  · obtain ⟨e, rest, hinbox, heff⟩ := step_effect_of_ne h (ne_of_apply_ne State.rxbuf hne)
    rcases heff.rxbuf with rfl | ⟨a, d, rfl⟩ | hrx
    · exact ⟨rest, .inl hinbox⟩
    · exact ⟨rest, .inr ⟨a, d, hinbox⟩⟩
    · exact absurd hrx hne
  · obtain ⟨e, rest, hinbox, heff⟩ := step_effect_of_ne h (ne_of_apply_ne (State.regValue · r) hne)
    rcases heff.operand hr with rfl | ⟨d, rfl⟩ | hreg
    · exact ⟨rest, .inl hinbox⟩
    · exact ⟨rest, .inr ⟨d, hinbox⟩⟩
    · exact absurd hreg hne

/-- `decodeResponse` depends on the length and on the bytes at 0 to 47 only (20_memory.md R68). -/
theorem decodeResponse_congr (len : BitVec 16) {buf buf' : Nat → Byte} (h : ∀ a, a < 48 → buf a = buf' a) :
    decodeResponse len buf = decodeResponse len buf' := by
  rw [decodeResponse, decodeResponse, h 0 (by omega), h 1 (by omega), recordOf_congr h]

/-- DEC writes the record, `ERR` and `RVALID` from what `decodeResponse` answers (40_packet_codec.md R144). -/
theorem exec_dec_results {s s' t t' : State} (h : exec .dec s = .next t) (h' : exec .dec s' = .next t')
    (heq : decodeResponse s.rxlen s.rxByte = decodeResponse s'.rxlen s'.rxByte) :
    t.record = t'.record ∧ t.err = t'.err ∧ t.rvalid = t'.rvalid := by
  cases hres : decodeResponse s'.rxlen s'.rxByte with
  | error e =>
    rw [next_unique (exec_dec_error (heq.trans hres)) h, next_unique (exec_dec_error hres) h']
    simp [raise_decode]
  | ok p =>
    rw [next_unique (exec_dec_ok (heq.trans hres)) h, next_unique (exec_dec_ok hres) h']
    simp

/-- CONV writes `EPOCH`, `SUBSEC`, `ERR` and `CVALID` from what `toCalendarTime` answers (41_time_converter.md R165). -/
theorem exec_conv_results {s s' t t' : State} (h : exec .conv s = .next t) (h' : exec .conv s' = .next t')
    (heq : toCalendarTime s.convSec s.convFrac = toCalendarTime s'.convSec s'.convFrac) :
    t.epoch = t'.epoch ∧ t.subsec = t'.subsec ∧ t.err = t'.err ∧ t.cvalid = t'.cvalid := by
  cases hres : toCalendarTime s'.convSec s'.convFrac with
  | error e =>
    rw [next_unique (exec_conv_error (heq.trans hres)) h, next_unique (exec_conv_error hres) h']
    simp [raise_conversion]
  | ok p =>
    rw [next_unique (exec_conv_ok (heq.trans hres)) h, next_unique (exec_conv_ok hres) h']
    simp

/-- Settles O37: each command writes what its pure function answers for its operands. -/
theorem noHiddenState : Obligations.NoHiddenState := by
  refine fun s s' t t' => ⟨fun h h' hvn hen hsec hfrac => ?_, fun h h' hlen hbytes => ?_, fun h h' hsec hfrac => ?_⟩
  · obtain ⟨herr, hv, -⟩ := exec_enc_flags h
    obtain ⟨herr', hv', -⟩ := exec_enc_flags h'
    refine ⟨fun a ha => ?_, herr.trans herr'.symm, hv.trans hv'.symm⟩
    rw [exec_enc_txbuf h ha, exec_enc_txbuf h' ha, hvn, hen, hsec, hfrac]
  · exact exec_dec_results h h' (by rw [hlen, decodeResponse_congr _ hbytes])
  · exact exec_conv_results h h' (by rw [hsec, hfrac])

/-! ### What the host may access -/

/-- No register but `CMD` is write-only (10_state.md R21). -/
theorem access_ne_wo {r : Reg} (h : r ≠ .cmd) : r.access ≠ .wo := by
  intro hw
  cases r <;> simp only [Reg.access, reduceCtorEq] at hw
  exact h rfl

/-- A read of a register that holds a value completes. -/
theorem perform_read_completes {s : State} {r : Reg} (h : r.access ≠ .wo) (hv : (s.regValue r).isSome) :
    ∃ t, perform (.regRead r) s = .next t :=
  have ⟨_, hd⟩ := Option.isSome_iff_exists.mp hv
  ⟨_, perform_read h hd⟩

/-- A `TXBUF` byte that holds no value is refused (10_state.md R38). -/
theorem perform_read_tx_none {s : State} {a : Nat} (ha : a < 48) (hb : s.txbuf.read a = none) :
    perform (.bufRead .tx a) s = .refused (.readNoValueByte a) := by
  simp [perform, hostBufRead, pktLen, ha, bufRead, hb]

/-- The registers from index 11 on are the record's: all of them hold values when the record does ... -/
theorem regValue_ofPacket {s : State} {p : NtpPacket} {r : Reg} (hs : s.record = RecordRegs.ofPacket p)
    (hr : 11 ≤ r.index) : (s.regValue r).isSome := by
  cases r <;> simp only [Reg.index, Nat.reduceLeDiff] at hr <;> simp [State.regValue, hs, RecordRegs.ofPacket]

/-- ... and none when it is gone. -/
theorem regValue_noValue {s : State} {r : Reg} (hs : s.record = RecordRegs.noValue) (hr : 11 ≤ r.index) :
    s.regValue r = none := by
  cases r <;> simp only [Reg.index, Nat.reduceLeDiff] at hr <;> simp [State.regValue, hs, RecordRegs.noValue]

/-- Settles O42: each clause of the invariant says what its flag promises. -/
theorem validFlagsSayWhatCanBeRead : Obligations.ValidFlagsSayWhatCanBeRead := by
  intro s hi
  obtain ⟨htx0, htx1⟩ := hi.transmit
  obtain ⟨hrec0, hrec1⟩ := hi.record
  obtain ⟨hcal0, hcal1⟩ := hi.calendar
  refine ⟨fun a ha => ⟨fun hv => ?_, fun hv => ?_⟩, fun r hr => ?_, fun r hr => ?_⟩
  · obtain ⟨b, hb⟩ := Option.isSome_iff_exists.mp ((htx1 hv).1 a ha)
    exact ⟨_, perform_read_tx ha hb⟩
  · exact perform_read_tx_none ha (by rw [htx0 hv, Memory.read])
  · have hacc : r.access ≠ .wo := access_ne_wo (by rintro rfl; simp [Reg.index] at hr)
    refine ⟨fun hv => ?_, fun hv => perform_read_none hacc (regValue_noValue (hrec0 hv) hr)⟩
    obtain ⟨p, hp, -⟩ := hrec1 hv
    exact perform_read_completes hacc (regValue_ofPacket hp hr)
  · have hacc : r.access ≠ .wo := by rcases hr with rfl | rfl <;> decide
    refine ⟨fun hv => perform_read_completes hacc ?_, fun hv => perform_read_none hacc ?_⟩
    · obtain ⟨e, q, he, hq, -⟩ := hcal1 hv
      rcases hr with rfl | rfl
      · simp [State.regValue, he]
      · simp [State.regValue, hq]
    · obtain ⟨he, hq⟩ := hcal0 hv
      rcases hr with rfl | rfl
      · simp [State.regValue, he]
      · simp [State.regValue, hq]

/-- Whatever the state, every command completes (60_exceptions.md R218, R220). -/
theorem exec_completes (i : Instr) (s : State) : ∃ t, exec i s = .next t := by
  cases i with
  | enc => exact ⟨_, exec_enc s⟩
  | dec => rcases exec_dec_cases s with ⟨-, e⟩ | ⟨-, -, e⟩ | ⟨-, -, -, e⟩ | ⟨-, -, -, e⟩ <;> exact ⟨_, e⟩
  | conv => rcases exec_conv_cases s with ⟨-, e⟩ | ⟨-, e⟩ <;> exact ⟨_, e⟩

/-- An `RXBUF` byte that the host has not written shows a free value, and the draw ends (10_state.md R37). -/
theorem perform_read_rx_unwritten {s : State} {a : Nat} (ha : a < 48) (hb : s.rxbuf.read a = none) :
    perform (.bufRead .rx a) s = .next ((s.giveBack (.buf .rx a (s.rxByte a))).nextDraw) := by
  simp [perform, hostBufRead, pktLen, ha, bufRead, hb]

/-- Any `RXBUF` byte can be read, written or not (10_state.md R37). -/
theorem perform_read_rx_completes {a : Nat} (ha : a < 48) (s : State) :
    ∃ t, perform (.bufRead .rx a) s = .next t := by
  cases hb : s.rxbuf.read a with
  | some b => exact ⟨_, perform_read_rx ha hb⟩
  | none => exact ⟨_, perform_read_rx_unwritten ha hb⟩

theorem perform_write_ro {r : Reg} (h : r.access = .ro) (d : Data) (s : State) :
    perform (.regWrite r d) s = .refused (.writeReadOnly r) := by
  simp [perform, hostRegWrite, h]

theorem perform_write_wrongWidth {r : Reg} {d : Data} (h : r.access ≠ .ro) (hd : d.fits r.width = false) (s : State) :
    perform (.regWrite r d) s = .refused (.wrongWidth r d) := by
  cases ha : r.access with
  | ro => exact absurd ha h
  | wo => simp [perform, hostRegWrite, ha, hd]
  | rw => simp [perform, hostRegWrite, ha, hd]

theorem perform_put_tx {a : Nat} (ha : a < 48) (d : Data) (s : State) :
    perform (.bufWrite .tx a d) s = .refused (.writeTransmitBuffer a) := by
  simp [perform, hostBufWrite, pktLen, ha, bufWrite]

theorem perform_put_wrongWidth {a : Nat} {d : Data} (ha : a < 48) (hd : d.fits 8 = false) (s : State) :
    perform (.bufWrite .rx a d) s = .refused (.wrongByteWidth a d) := by
  simp [perform, hostBufWrite, pktLen, ha, bufWrite, hd]

theorem perform_reserved {c : Byte} (h : c.toNat = 0 ∨ 4 ≤ c.toNat) (s : State) :
    perform (cmdTxn { width := 8, value := c.toNat }) s = .refused (.reservedCommand c) := by
  rw [perform_cmd, runCommand, decode_reserved c h]

/-- Settles O43: one clause for each kind of access. -/
theorem accessRights : Obligations.AccessRights := by
  intro s
  exact
    ⟨fun r d hr hv => perform_read hr hv,
     fun r d hr hd => ⟨_, perform_write hr hd⟩,
     fun i => (exec_completes i s).imp fun t ht => (perform_command i s).trans ht,
     fun a b ha hb => perform_read_tx ha hb,
     fun a ha => perform_read_rx_completes ha s,
     fun a d ha hd => ⟨_, perform_put ha hd⟩,
     fun r d hr => perform_write_ro hr d s,
     fun a d ha => perform_put_tx ha d s,
     rfl,
     fun r d hr hd => perform_write_wrongWidth hr hd s,
     fun a d ha hd => perform_put_wrongWidth ha hd s,
     fun r hr hv => perform_read_none hr hv,
     fun a ha hb => perform_read_tx_none ha hb,
     fun c hc => perform_reserved hc s⟩

/-! ### Reset, the step and the `STATUS` word -/

/-- Settles O1: the table of values, then the one outcome each command has at reset. -/
theorem resetValuesAndFirstCommands : Obligations.ResetValuesAndFirstCommands := by
  refine ⟨⟨rfl, by decide, by decide, by decide, by decide⟩, ⟨rfl, rfl, rfl, rfl, rfl, rfl, rfl⟩,
    ⟨rfl, rfl, fun r hr => regValue_noValue rfl hr, fun a => rfl, fun a => rfl⟩,
    ⟨_, exec_enc _, by decide, by decide, fun a h1 h48 => ?_⟩,
    ⟨_, exec_dec_error (decodeResponse_short (by decide)), by decide⟩,
    ⟨_, exec_conv_error (toCalendarTime_before (by decide)), by decide⟩⟩
  have hoff : State.reset.cfgTxen ≠ 1#1 := by decide
  rw [exec_enc_txbuf (exec_enc _) h48, encodeRequest_byte _ _ _ _ _ h48, if_neg (by omega), if_neg hoff, if_neg hoff]
  simp

/-- Settles O5: the write of a byte to `CMD` is `runCommand` of that byte. -/
theorem stepRunsDecodedCommand : Obligations.StepRunsDecodedCommand := by
  intro s c i rest hc hinbox
  rw [step_cons hinbox, handle, perform_cmd, runCommand, hc]

/-- Settles O39, by going through the 256 words. -/
theorem statusWordIsItsFields : Obligations.StatusWordIsItsFields := by
  have hword : ∀ st : BitVec 8, unusedField st = 0#2 → st.toNat = (errField st).toNat + 8 * (tvalidField st).toNat
      + 16 * (rvalidField st).toNat + 32 * (cvalidField st).toNat := by decide
  exact fun s => hword s.status

end Sys2Proof.Machine

/-!
PROOFS. The family 20_memory.md: the order of events, byte order in the buffers, the frame of each command, and what the
host's reads and writes change.
-/

namespace Sys2Proof.Machine

/-! ### Bytes of a word -/

/-- Each byte of a word stored in a buffer (20_memory.md R62). -/
theorem read_store_wordBytes (m : Memory) (a : Nat) (v : Word) {k : Nat} (hk : k < 4) :
    (Memory.store m a (wordBytes v)).read (a + k) = some (v.extractLsb' (8 * (3 - k)) 8) := by
  rw [Memory.read_store, wordBytes_length, if_pos (by omega), Nat.add_sub_cancel_left, wordBytes_get v k hk]

/-- A word stored in a buffer leaves every other address. -/
theorem read_store_wordBytes_outside (m : Memory) (a : Nat) (v : Word) {x : Nat} (hx : x < a ∨ a + 4 ≤ x) :
    (Memory.store m a (wordBytes v)).read x = m.read x := by
  rw [Memory.read_store, wordBytes_length, if_neg (by omega)]

/-- `MemRead` by concatenation is `MemRead` by the sum of 00_scope.md R14. -/
theorem bigEndian_eq_memRead4 (buf : Nat → Byte) (a : Nat) : bigEndian buf a = (memRead4 buf a).toNat :=
  (memRead4_toNat buf a).symm

/-- A reader that shows the four bytes of a word reads the word (40_packet_codec.md R148 (e)). -/
theorem memRead4_of_bytes {buf : Nat → Byte} {a : Nat} {v : Word}
    (h : ∀ k, k < 4 → buf (a + k) = v.extractLsb' (8 * (3 - k)) 8) : memRead4 buf a = v := by
  have h0 : buf a = v.extractLsb' 24 8 := h 0 (by omega)
  rw [memRead4, h0, h 1 (by omega), h 2 (by omega), h 3 (by omega)]
  exact be32_wordBytes v

/-- Settles O12: the stored bytes are the word's slices, and the slices read as the word. -/
theorem storedWordsAreBigEndian : Obligations.StoredWordsAreBigEndian := by
  intro m a v
  refine ⟨fun k hk => ⟨_, read_store_wordBytes m a v hk, extractByte_toNat v _⟩,
    fun x => read_store_wordBytes_outside m a v, fun buf hbuf => ?_⟩
  have hread : memRead4 buf a = v := memRead4_of_bytes fun k hk =>
    Option.some.inj ((hbuf k hk).symm.trans (read_store_wordBytes m a v hk))
  exact ⟨hread, by rw [bigEndian_eq_memRead4, hread]⟩

/-- Settles O13: the bytes of the word read at `f` are the four bytes it was read from. -/
theorem fieldBytesAreSlices : Obligations.FieldBytesAreSlices := by
  intro buf f a hf ha
  obtain ⟨k, rfl⟩ := Nat.exists_eq_add_of_le hf
  have hk : k < 4 := by omega
  have hslice := wordBytes_get (memRead4 buf f) k hk
  rw [memRead4, wordBytes_be32] at hslice
  rw [Nat.add_sub_cancel_left]
  refine Option.some.inj (Eq.trans ?_ hslice)
  interval_cases k <;> rfl

/-! ### The order of events -/

/-- No event adds to what waits or takes from it (20_memory.md R75). -/
theorem EventEffect.inbox {e : Event} {s t : State} (h : EventEffect e s t) : t.inbox = s.inbox := by
  cases h with
  | command i d he hd hi ht =>
    obtain ⟨-, -, -, -, -, -, -, -, hinbox, -⟩ := exec_keeps ht
    exact hinbox
  | store r d he hr hd ht =>
    obtain ⟨-, -, hinbox, -⟩ := storeReg_rest s r d.value
    exact ht ▸ hinbox
  | read r d he hr hv ht => exact ht ▸ rfl
  | putByte a d he ha hd ht => exact ht ▸ rfl
  | getByte sp a b n he ha ht => exact ht ▸ rfl
  | reset he ht => exact ht ▸ rfl

/-- Settles O8: a step handles the event at the front, which leaves the others waiting. -/
theorem eventsAreTakenInOrder : Obligations.EventsAreTakenInOrder := by
  intro s e rest hinbox
  have hstep := step_cons hinbox
  exact ⟨hstep, fun t ht => (handle_next (hstep.symm.trans ht)).inbox⟩

/-! ### The frame of each command -/

/-- A register from index 11 on holds what the record holds. -/
theorem regValue_of_record {s t : State} {r : Reg} (hr : 11 ≤ r.index) (h : t.record = s.record) :
    t.regValue r = s.regValue r := by
  cases r <;> simp only [Reg.index, Nat.reduceLeDiff] at hr <;> simp only [State.regValue, h]

/-- A command writes no register but `STATUS` and its own results (10_state.md R21). -/
theorem exec_regValue {i : Instr} {s t : State} {r : Reg} (h : exec i s = .next t) (hst : r ≠ .status)
    (hdec : i = .dec → r.index < 11) (hconv : i = .conv → r ≠ .epoch ∧ r ≠ .subsec) :
    t.regValue r = s.regValue r := by
  obtain ⟨-, hrec, hcal⟩ := exec_other_results h
  by_cases h11 : 11 ≤ r.index
  · exact regValue_of_record h11 (hrec fun hi => absurd (hdec hi) (Nat.not_lt.mpr h11))
  · cases hacc : r.access with
    | rw => exact exec_regValue_rw h hacc
    | wo =>
      cases r <;> simp only [Reg.access, reduceCtorEq] at hacc
      rfl
    | ro =>
      have hr : r = .epoch ∨ r = .subsec := by
        cases r <;> simp [Reg.access, Reg.index] at hacc h11 hst ⊢
      have hi : i ≠ .conv := fun hi => hr.elim (hconv hi).1 (hconv hi).2
      obtain ⟨hep, hsub⟩ := hcal hi
      rcases hr with rfl | rfl
      · simp only [State.regValue, hep]
      · simp only [State.regValue, hsub]

/-- Only DEC draws unspecified bytes (10_state.md R37). -/
theorem exec_draws {i : Instr} {s t : State} (h : exec i s = .next t) (hi : i ≠ .dec) : t.draws = s.draws := by
  cases i with
  | enc => rw [next_unique (exec_enc s) h]; simp
  | dec => exact absurd rfl hi
  | conv => rcases exec_conv_cases s with ⟨-, e⟩ | ⟨-, e⟩ <;> rw [next_unique e h] <;> simp [raise_conversion]

/-- ENC changes no address from 48 on (20_memory.md R60). -/
theorem exec_enc_txbuf_outside {s t : State} (h : exec .enc s = .next t) {a : Nat} (ha : 48 ≤ a) :
    t.txbuf.read a = s.txbuf.read a := by
  rw [next_unique (exec_enc s) h, withStatus_txbuf, withTxbuf_txbuf, encodeInto_outside _ _ _ _ _ _ ha]

/-- Settles O18: the frame common to all commands, and the addresses ENC's writes do not reach. -/
theorem encFrame : Obligations.EncFrame := by
  intro s t h
  obtain ⟨-, -, -, -, hrx, -, -, -, hinbox, hreturned⟩ := exec_keeps h
  exact ⟨fun a => exec_enc_txbuf_outside h, fun a => by rw [hrx], fun r hr => exec_regValue h hr nofun nofun,
    hinbox, hreturned, exec_draws h nofun⟩

/-- Settles O25: the frame common to all commands; DEC writes no result but the record. -/
theorem decFrame : Obligations.DecFrame := by
  intro s t h
  obtain ⟨-, -, -, -, hrx, -, -, -, hinbox, hreturned⟩ := exec_keeps h
  obtain ⟨htx, -⟩ := exec_other_results h
  exact ⟨fun a => by rw [htx nofun], fun a => by rw [hrx],
    fun r hr h11 => exec_regValue h hr (fun _ => h11) nofun, hinbox, hreturned⟩

/-- Settles O31: the frame common to all commands; CONV writes no result but `EPOCH` and `SUBSEC`. -/
theorem convFrame : Obligations.ConvFrame := by
  intro s t h
  obtain ⟨-, -, -, -, hrx, -, -, -, hinbox, hreturned⟩ := exec_keeps h
  obtain ⟨htx, -⟩ := exec_other_results h
  exact ⟨fun a => by rw [htx nofun], fun a => by rw [hrx],
    fun r hr he hq => exec_regValue h hr nofun (fun _ => ⟨he, hq⟩), hinbox, hreturned, exec_draws h nofun⟩

/-! ### What DEC reads -/

/-- From 48 bytes on the length plays no part (40_packet_codec.md R141). -/
theorem decodeResponse_long {len len' : BitVec 16} (buf : Nat → Byte) (h : 48 ≤ len.toNat) (h' : 48 ≤ len'.toNat) :
    decodeResponse len buf = decodeResponse len' buf := by
  rw [decodeResponse, decodeResponse, if_neg (show ¬ len.toNat < pktLen from Nat.not_lt.mpr h),
    if_neg (show ¬ len'.toNat < pktLen from Nat.not_lt.mpr h')]

/-- Settles O23: what `decodeResponse` answers depends on the 48 bytes only. -/
theorem decReadsOnlyFirst48Bytes : Obligations.DecReadsOnlyFirst48Bytes := by
  intro s s' t t' h h' hlen hlen' hbytes
  have heq : decodeResponse s.rxlen s.rxByte = decodeResponse s'.rxlen s'.rxByte :=
    (decodeResponse_long _ hlen hlen').trans (decodeResponse_congr _ hbytes)
  obtain ⟨hrec, herr, hvalid⟩ := exec_dec_results h h' heq
  exact ⟨herr, hvalid, hrec⟩

/-- A written byte of `RXBUF` is the byte shown. -/
theorem read_rxbuf_of_isSome {s : State} {a : Nat} (h : (s.rxbuf.read a).isSome) :
    s.rxbuf.read a = some (s.rxByte a) := by
  obtain ⟨b, hb⟩ := Option.isSome_iff_exists.mp h
  rw [hb, rxByte_of_written hb]

/-- A raised `DecodeError` is never reported as success (30_encoding.md R112). -/
theorem raise_decode_err_ne (d : DecodeError) (s : State) : (raise (.decode d) s).err ≠ 0#3 := by
  rw [(raise_decode_flags d s).1]
  exact errorCode_ne_success _

/-- A DEC that reports success has written the record of the bytes shown (40_packet_codec.md R142). -/
theorem exec_dec_record {s t : State} (h : exec .dec s = .next t) (herr : t.err = 0#3) :
    t.record = RecordRegs.ofPacket (recordOf s.rxByte) := by
  rcases exec_dec_cases s with ⟨-, e⟩ | ⟨-, -, e⟩ | ⟨-, -, -, e⟩ | ⟨-, -, -, e⟩ <;> obtain rfl := next_unique e h
  · exact absurd herr (raise_decode_err_ne _ _)
  · exact absurd herr (raise_decode_err_ne _ _)
  · exact absurd herr (raise_decode_err_ne _ _)
  · rfl

/-- Settles O24: the record's four one-byte fields are the bytes at 0 to 3, which DEC leaves in `RXBUF`. -/
theorem recordBytesAreTheWireBytes : Obligations.RecordBytesAreTheWireBytes := by
  intro s t h herr hwritten r a hra
  have hrec := exec_dec_record h herr
  obtain ⟨-, -, -, -, hrx, -⟩ := exec_keeps h
  have hfield : a < 48 ∧ r.access ≠ .wo ∧ t.regValue r = some (Data.ofBits (s.rxByte a)) := by
    simp only [List.mem_cons, Prod.mk.injEq, List.not_mem_nil, or_false] at hra
    rcases hra with ⟨rfl, rfl⟩ | ⟨rfl, rfl⟩ | ⟨rfl, rfl⟩ | ⟨rfl, rfl⟩ <;>
      exact ⟨by decide, by decide, by rw [State.regValue, hrec]; rfl⟩
  obtain ⟨ha, hacc, hval⟩ := hfield
  have hbyte : t.rxbuf.read a = some (s.rxByte a) := hrx ▸ read_rxbuf_of_isSome (hwritten a ha)
  exact ⟨s.rxByte a, perform_read_rx ha hbyte, perform_read hacc hval⟩

/-! ### A command repeated -/

/-- Every command keeps bits 7:6 of `STATUS` (10_state.md R29). -/
theorem exec_unusedField {i : Instr} {s t : State} (h : exec i s = .next t) :
    unusedField t.status = unusedField s.status := by
  cases i with
  | enc => rw [next_unique (exec_enc s) h]; simp
  | dec =>
    rcases exec_dec_cases s with ⟨-, e⟩ | ⟨-, -, e⟩ | ⟨-, -, -, e⟩ | ⟨-, -, -, e⟩ <;>
      rw [next_unique e h] <;> simp [raise_decode]
  | conv => rcases exec_conv_cases s with ⟨-, e⟩ | ⟨-, e⟩ <;> rw [next_unique e h] <;> simp [raise_conversion]

/-- A command that leaves the flags and the results as they are has changed nothing of the block. -/
theorem sameBlock_of_exec {i : Instr} {s t : State} (h : exec i s = .next t)
    (hflags : t.err = s.err ∧ t.tvalid = s.tvalid ∧ t.rvalid = s.rvalid ∧ t.cvalid = s.cvalid)
    (htx : t.txbuf = s.txbuf) (hrec : t.record = s.record) (hcal : t.epoch = s.epoch ∧ t.subsec = s.subsec) :
    SameBlock t s := by
  obtain ⟨hvn, hen, hsec, hfrac, hrx, hlen, hcs, hcf, -⟩ := exec_keeps h
  obtain ⟨he, ht, hr, hc⟩ := hflags
  obtain ⟨hep, hsub⟩ := hcal
  exact ⟨status_ext _ _ he ht hr hc (exec_unusedField h), hvn, hen, hsec, hfrac, htx, hrx, hlen, hrec, hcs, hcf,
    hep, hsub⟩

/-- ENC keeps the canonical form of `TXBUF`. -/
theorem exec_enc_txbuf_wf {s t : State} (hwf : s.txbuf.wf = true) (h : exec .enc s = .next t) :
    t.txbuf.wf = true := by
  rw [next_unique (exec_enc s) h, withStatus_txbuf, withTxbuf_txbuf]
  exact encodeInto_wf _ _ _ _ hwf

/-- ENC run again stores the same image (20_memory.md R71). -/
theorem exec_enc_repeat {s t u : State} (hwf : s.txbuf.wf = true) (h : exec .enc s = .next t)
    (h' : exec .enc t = .next u) : SameBlock u t := by
  obtain ⟨hvn, hen, hsec, hfrac, -⟩ := exec_keeps h
  obtain ⟨-, hrec, hcal⟩ := exec_other_results h'
  obtain ⟨herr, htv, -⟩ := exec_enc_flags h
  obtain ⟨herr', htv', hrv', hcv'⟩ := exec_enc_flags h'
  have hwft := exec_enc_txbuf_wf hwf h
  have htx : u.txbuf = t.txbuf := Memory.ext_of_wf (exec_enc_txbuf_wf hwft h') hwft fun a => by
    rcases Nat.lt_or_ge a 48 with ha | ha
    · rw [exec_enc_txbuf h' ha, exec_enc_txbuf h ha, hvn, hen, hsec, hfrac]
    · exact exec_enc_txbuf_outside h' ha
  exact sameBlock_of_exec h' ⟨herr'.trans herr.symm, htv'.trans htv.symm, hrv', hcv'⟩ htx (hrec nofun) (hcal nofun)

/-- What DEC leaves decodes as before when its operands were fixed: a short buffer, or written bytes. -/
theorem decodeResponse_after_dec {s t : State} (hfixed : s.rxlen.toNat < 48 ∨ ∀ a, a < 48 → (s.rxbuf.read a).isSome)
    (h : exec .dec s = .next t) : decodeResponse t.rxlen t.rxByte = decodeResponse s.rxlen s.rxByte := by
  obtain ⟨-, -, -, -, hrx, hlen, -⟩ := exec_keeps h
  rw [hlen]
  rcases hfixed with hshort | hwritten
  · rw [decodeResponse_short hshort, decodeResponse_short hshort]
  · exact decodeResponse_congr _ fun a ha => rxByte_of_written (hrx ▸ read_rxbuf_of_isSome (hwritten a ha))

/-- DEC run again on the same operands reports the same results (20_memory.md R71). -/
theorem exec_dec_repeat {s t u : State} (hfixed : s.rxlen.toNat < 48 ∨ ∀ a, a < 48 → (s.rxbuf.read a).isSome)
    (h : exec .dec s = .next t) (h' : exec .dec t = .next u) : SameBlock u t := by
  obtain ⟨hrec, herr, hrv⟩ := exec_dec_results h' h (decodeResponse_after_dec hfixed h)
  obtain ⟨-, htv, hcv⟩ := exec_dec_flags h'
  obtain ⟨htx, -, hcal⟩ := exec_other_results h'
  exact sameBlock_of_exec h' ⟨herr, htv, hrv, hcv⟩ (htx nofun) hrec (hcal nofun)

/-- CONV run again on the same operands reports the same results (20_memory.md R71). -/
theorem exec_conv_repeat {s t u : State} (h : exec .conv s = .next t) (h' : exec .conv t = .next u) :
    SameBlock u t := by
  obtain ⟨-, -, -, -, -, -, hsec, hfrac, -⟩ := exec_keeps h
  obtain ⟨hep, hsub, herr, hcv⟩ := exec_conv_results h' h (by rw [hsec, hfrac])
  obtain ⟨-, htv, hrv⟩ := exec_conv_flags h'
  obtain ⟨htx, hrec, -⟩ := exec_other_results h'
  exact sameBlock_of_exec h' ⟨herr, htv, hrv, hcv⟩ (htx nofun) (hrec nofun) ⟨hep, hsub⟩

/-- Settles O38: each command finds its operands and writes its results as in the first run. -/
theorem repeatedCommandsChangeNothing : Obligations.RepeatedCommandsChangeNothing := by
  intro i s t u hwf hfixed h h'
  cases i with
  | enc => exact exec_enc_repeat hwf h h'
  | dec => exact exec_dec_repeat (hfixed rfl) h h'
  | conv => exact exec_conv_repeat h h'

/-! ### The host's reads and writes -/

/-- Settles O45: a write of a register is `storeReg`, a write of a byte `Memory.write`. -/
theorem hostWritesOneCell : Obligations.HostWritesOneCell := by
  refine ⟨fun s r d hr hd => ?_, fun s a b ha => ?_⟩
  · obtain ⟨htx, hrx, -⟩ := storeReg_rest s r d.value
    exact ⟨_, perform_write hr hd, storeReg_same hr hd, fun r' => storeReg_other d.value, htx, hrx⟩
  · refine ⟨_, perform_put ha (Data.fits_ofBits b), ?_, fun x => Memory.read_write_other _ _ _ _, rfl⟩
    rw [withRxbuf_rxbuf, Memory.read_write_same, BitVec.ofNat_toNat, BitVec.setWidth_eq]

/-- All that a completed register read can do: it gives the value back. -/
theorem perform_read_next {r : Reg} {s t : State} (h : perform (.regRead r) s = .next t) :
    ∃ d, s.regValue r = some d ∧ t = s.giveBack (.reg r d) := by
  rw [perform, hostRegRead] at h
  split at h <;> cases h
  exact ⟨_, (readReg_eq_ok.mp (by assumption)).2, rfl⟩

/-- A buffer read that completes is one of an address of the buffer (20_memory.md R60). -/
theorem bufRead_of_perform {sp : Space} {a : Nat} {s t : State} (h : perform (.bufRead sp a) s = .next t) :
    bufRead sp a s = .next t := by
  rw [perform, hostBufRead] at h
  split at h
  · exact h
  · cases h

/-- Settles O46: a completed read gives one value back; besides, only the model's own fields can move. -/
theorem hostReadsChangeNothing : Obligations.HostReadsChangeNothing := by
  refine ⟨fun s t r h => ?_, fun s t sp a h => ?_⟩
  · obtain ⟨d, hd, rfl⟩ := perform_read_next h
    exact ⟨by simp [SameBlock], d, hd, regValue_fits hd, rfl⟩
  · obtain ⟨b, n, rfl, htx, hrx⟩ := bufRead_next (bufRead_of_perform h)
    exact ⟨by simp [SameBlock], b, rfl, htx, fun b' hsp hb' => (hrx hsp).trans (rxByte_of_written hb')⟩

/-- Settles O47: the address is checked before anything else, and a second host's event is refused as such. -/
theorem noOtherAddressAndNoSecondHost : Obligations.NoOtherAddressAndNoSecondHost := by
  refine fun s => ⟨fun sp a ha => ?_, fun sp a d ha => ?_, fun t rest hinbox => ?_⟩
  · exact if_neg (Nat.not_lt.mpr ha)
  · exact if_neg (Nat.not_lt.mpr ha)
  · rw [step_cons hinbox, handle]

end Sys2Proof.Machine

/-!
PROOFS. The family 30_encoding.md: the command codes and the numeric views of the record's bit patterns.
-/

namespace Sys2Proof.Machine

/-! ### The command codes -/

/-- The code of a command decodes to that command (30_encoding.md R110). -/
@[simp] theorem decode_encode (i : Instr) : decode (encode i) = .command i := by cases i <;> rfl

/-- Settles O3: the decoder and the encoder are inverse to each other, and the three codes are those of the encoder. -/
theorem commandCodesDecode : Obligations.CommandCodesDecode := by
  refine ⟨decode_encode .enc, decode_encode .dec, decode_encode .conv, fun c i => ⟨eq_encode_of_decode, ?_⟩⟩
  rintro rfl
  exact decode_encode i

/-- Settles O4: the step performs the write of the reserved code. -/
theorem reservedCodesAreRefused : Obligations.ReservedCodesAreRefused := by
  intro s c rest hc hinbox
  rw [step_cons hinbox, handle, perform_reserved hc]

/-! ### The numeric views -/

section NumericView

variable {w : Nat}

@[simp] theorem numericView_false (p : BitVec w) : numericView false p = p.toNat := rfl

@[simp] theorem numericView_true (p : BitVec w) : numericView true p = p.toInt := rfl

/-- The unsigned view of a `w`-bit pattern runs from 0 to `2^w - 1` (30_encoding.md R98, R99). -/
theorem numericView_false_range (p : BitVec w) : 0 ≤ numericView false p ∧ numericView false p < 2 ^ w :=
  ⟨Int.natCast_nonneg _, by rw [numericView_false]; exact_mod_cast p.isLt⟩

/-- The two's complement view of a `w`-bit pattern runs from `-2^(w-1)` to `2^(w-1) - 1` (30_encoding.md R98, R99). -/
theorem numericView_true_range (p : BitVec w) :
    -2 ^ (w - 1) ≤ numericView true p ∧ numericView true p < 2 ^ (w - 1) :=
  ⟨BitVec.le_toInt p, BitVec.toInt_lt⟩

/-- The top bit counts `-2^(w-1)` in the two's complement view, not `2^(w-1)` (30_encoding.md R99). -/
theorem numericView_true_eq_sub_msb (p : BitVec w) :
    numericView true p = (p.toNat : Int) - 2 ^ w * p.msb.toNat := by
  rw [numericView_true, BitVec.toInt_eq_msb_cond]
  cases p.msb <;> simp

/-- Where the top bit is clear the two views agree, so it does not matter which one is chosen (30_encoding.md R98, R99). -/
theorem numericView_of_msb_clear (signed : Bool) {p : BitVec w} (h : 2 * p.toNat < 2 ^ w) :
    numericView signed p = p.toNat := by
  cases signed with
  | false => exact numericView_false p
  | true => exact BitVec.toInt_eq_toNat_of_lt h

end NumericView

/-- A 16.16 pattern is its integer part and its fraction, as a numerator over 2^16 (30_encoding.md R99). -/
theorem fixedPoint_toNat (r : Word) : r.toNat = (fixedInteger r).toNat * 65536 + (fixedFraction r).toNat := by
  simp only [fixedInteger, fixedFraction, BitVec.extractLsb'_toNat, Nat.shiftRight_eq_div_pow]
  omega

/-- The two's complement view of a byte, by halves of its range (30_encoding.md R98). -/
theorem numericView_true_byte (p : Byte) :
    numericView true p = if p.toNat < 128 then (p.toNat : Int) else p.toNat - 256 := by
  rw [numericView_true, BitVec.toInt_eq_toNat_cond]
  split <;> split <;> omega

/-- Settles O48: the ranges are those of any width, at 8 and at 32 bits. -/
theorem numericViews : Obligations.NumericViews := by
  refine ⟨fun p => ?_, fun r => ?_⟩
  · obtain ⟨hlo, hhi⟩ := numericView_false_range p
    obtain ⟨hslo, hshi⟩ := numericView_true_range p
    exact ⟨⟨numericView_false p, hlo, Int.le_of_lt_add_one hhi⟩,
      numericView_true_byte p, hslo, Int.le_of_lt_add_one hshi⟩
  · obtain ⟨hlo, hhi⟩ := numericView_false_range r
    obtain ⟨hslo, hshi⟩ := numericView_true_range r
    refine ⟨⟨?_, hlo, Int.le_of_lt_add_one hhi⟩, ⟨?_, hslo, Int.le_of_lt_add_one hshi⟩, fun hr => ?_⟩
    · rw [numericView_false]
      exact_mod_cast fixedPoint_toNat r
    · exact numericView_true_eq_sub_msb r
    · have hclear : 2 * r.toNat < 2 ^ 32 := by omega
      exact ⟨numericView_of_msb_clear _ hclear, numericView_of_msb_clear _ hclear⟩

end Sys2Proof.Machine

/-!
PROOFS. The family 40_packet_codec.md: the wire format and its round trips, the request image and ENC, and the outcomes of DEC.
-/

namespace Sys2Proof.Machine

/-! ### The wire format -/

/-- The mode of a flags byte put together from its fields (30_encoding.md R91). -/
theorem flagsMode_makeFlags : ∀ (li : BitVec 2) (vn mode : BitVec 3), flagsMode (makeFlags li vn mode) = mode := by
  decide

/-- The first two bytes of a marshalled record are the two that DEC checks (30_encoding.md R90). -/
theorem imageByte_marshal_checked (r : NtpPacket) :
    imageByte (marshal r) 0 = r.flags ∧ imageByte (marshal r) 1 = r.stratum := ⟨rfl, rfl⟩

/-- A marshalled record that passes DEC's checks decodes to itself (40_packet_codec.md R148 (a)). -/
theorem decodeResponse_marshal {len : BitVec 16} {r : NtpPacket} (hlen : 48 ≤ len.toNat)
    (hmode : flagsMode r.flags = serverMode) (hstratum : r.stratum ≠ 0#8) :
    decodeResponse len (imageByte (marshal r)) = .ok r := by
  obtain ⟨hflags, hbyte1⟩ := imageByte_marshal_checked r
  rw [decodeResponse_ok hlen (hflags ▸ hmode) (hbyte1 ▸ hstratum), recordOf_marshal]

/-- Settles O10: between 48 bytes and a record, reading and marshalling undo each other, and the checks see the same two bytes. -/
theorem wireFormatRoundTrips : Obligations.WireFormatRoundTrips :=
  ⟨fun _ hmode hstratum => decodeResponse_marshal (by decide) hmode hstratum,
   fun buf hmode hstratum =>
    ⟨recordOf buf, decodeResponse_ok (by decide) hmode hstratum, marshal_length _, marshal_recordOf buf⟩⟩

/-- Settles O11: the length decides the first check and nothing else, and that check reads no byte. -/
theorem decodeIgnoresLengthOrBytes : Obligations.DecodeIgnoresLengthOrBytes :=
  ⟨fun _ _ buf hlen hlen' => decodeResponse_long buf hlen hlen',
   fun _ _ _ hlen => (decodeResponse_short hlen).trans (decodeResponse_short hlen).symm⟩

/-! ### The request image -/

/-- A zero word is four zero bytes. -/
theorem wordBytes_zero : wordBytes 0#32 = List.replicate 4 0#8 := rfl

/-- The image of a request is the wire format of its record: the zeros of bytes 1 to 39 are the record's zero fields
(40_packet_codec.md R147). -/
theorem encodeRequest_eq_marshal (vn : BitVec 3) (txen : BitVec 1) (sec frac : Word) :
    encodeRequest vn txen sec frac = marshal (requestRecord vn txen sec frac) := by
  simp only [encodeRequest, marshal, requestRecord, wordBytes_zero]
  rfl

/-- Settles O15: a marshalled record has 48 bytes. -/
theorem requestImageIsMarshal : Obligations.RequestImageIsMarshal := fun vn txen sec frac =>
  ⟨encodeRequest_eq_marshal vn txen sec frac, by rw [encodeRequest_eq_marshal, marshal_length]⟩

section RequestBytes

variable (vn : BitVec 3) (txen : BitVec 1) (sec frac : Word)

/-- Byte 0 of a request: `LI` 0, the version, client mode (40_packet_codec.md R132). -/
theorem encodeRequest_flags : imageByte (encodeRequest vn txen sec frac) 0 = makeFlags 0#2 vn clientMode := by
  rw [encodeRequest_byte _ _ _ _ _ (by omega), if_pos rfl]

/-- Bytes 1 to 39 of a request are zero (40_packet_codec.md R132). -/
theorem encodeRequest_zeros {a : Nat} (h1 : 1 ≤ a) (h40 : a < 40) :
    imageByte (encodeRequest vn txen sec frac) a = 0#8 := by
  rw [encodeRequest_byte _ _ _ _ _ (by omega), if_neg (by omega), if_pos h40]

/-- Bytes 40 to 43 of a request are the seconds, when they are enabled (40_packet_codec.md R133). -/
theorem encodeRequest_seconds {k : Nat} (hk : k < 4) :
    imageByte (encodeRequest vn txen sec frac) (40 + k) =
      (if txen = 1#1 then sec else 0#32).extractLsb' (8 * (3 - k)) 8 := by
  rw [encodeRequest_byte _ _ _ _ _ (by omega), if_neg (by omega), if_neg (by omega), if_pos (by omega),
    show 43 - (40 + k) = 3 - k by omega]

/-- Bytes 44 to 47 of a request are the fraction, when it is enabled (40_packet_codec.md R133). -/
theorem encodeRequest_fraction {k : Nat} (hk : k < 4) :
    imageByte (encodeRequest vn txen sec frac) (44 + k) =
      (if txen = 1#1 then frac else 0#32).extractLsb' (8 * (3 - k)) 8 := by
  rw [encodeRequest_byte _ _ _ _ _ (by omega), if_neg (by omega), if_neg (by omega), if_neg (by omega),
    show 47 - (44 + k) = 3 - k by omega]

end RequestBytes

/-- A disabled transmit timestamp is eight zero bytes (40_packet_codec.md R133). -/
theorem encodeRequest_disabled (vn : BitVec 3) (sec frac : Word) {a : Nat} (h40 : 40 ≤ a) (h48 : a < 48) :
    imageByte (encodeRequest vn 0#1 sec frac) a = 0#8 := by
  have hoff : 0#1 ≠ 1#1 := by decide
  rw [encodeRequest_byte _ _ _ _ _ h48, if_neg (by omega), if_neg (by omega), if_neg hoff, if_neg hoff]
  simp

/-- Settles O16: the enabled words are read back from their bytes, and the disabled ones are zeros. -/
theorem requestTransmitIsOptional : Obligations.RequestTransmitIsOptional := by
  refine fun vn sec frac => ⟨⟨?_, ?_⟩, fun a => encodeRequest_disabled vn sec frac⟩
  · rw [bigEndian_eq_memRead4, memRead4_of_bytes fun k => encodeRequest_seconds vn 1#1 sec frac, if_pos rfl]
  · rw [bigEndian_eq_memRead4, memRead4_of_bytes fun k => encodeRequest_fraction vn 1#1 sec frac, if_pos rfl]

/-! ### ENC -/

/-- The flags byte of a request as a number (40_packet_codec.md R132). -/
theorem requestFlags_toNat (vn : BitVec 3) : (makeFlags 0#2 vn clientMode).toNat = vn.toNat * 8 + 3 := by
  simp [makeFlags_toNat, clientMode]

/-- The two fields ENC writes, as one update of the state. -/
theorem withTxbuf_withStatus (s : State) (m : Memory) (v : BitVec 8) :
    (s.withTxbuf m).withStatus v = { s with status := v, txbuf := m } := rfl

/-- ENC changes `STATUS` and `TXBUF` and no other field (40_packet_codec.md R135). -/
theorem exec_enc_frame {s t : State} (h : exec .enc s = .next t) :
    t = { s with status := t.status, txbuf := t.txbuf } := by
  rw [next_unique (exec_enc s) h, withTxbuf_withStatus]

/-- Settles O14: `TXBUF` shows the request of the operands, read at the ranges of its fields; the rest is ENC's flags and its frame. -/
theorem encCommandRule : Obligations.EncCommandRule := by
  refine ⟨decode_encode .enc, fun s => ?_⟩
  obtain ⟨t, h⟩ := exec_completes .enc s
  have himage : ∀ a, a < 48 → t.txbuf.read a = some (imageByte (encodeRequest s.cfgVn s.cfgTxen s.txSec s.txFrac) a) :=
    fun a => exec_enc_txbuf h
  obtain ⟨herr, htv, hrv, hcv⟩ := exec_enc_flags h
  refine ⟨t, h, himage, ⟨_, himage 0 (by omega), ?_⟩, fun a h1 h40 => ?_, fun k hk => ?_, fun k hk => ?_,
    htv, herr, hrv, hcv, exec_unusedField h, exec_enc_frame h⟩
  · rw [encodeRequest_flags, requestFlags_toNat]
  · rw [himage a (by omega), encodeRequest_zeros _ _ _ _ h1 h40]
  · rw [himage _ (by omega), encodeRequest_seconds _ _ _ _ hk]
  · rw [himage _ (by omega), encodeRequest_fraction _ _ _ _ hk]

/-! ### DEC -/

/-- DEC on bytes that do not decode: the error's code, and no record (40_packet_codec.md R144). -/
theorem exec_dec_of_error {s t : State} {e : DecodeError} (h : exec .dec s = .next t)
    (he : decodeResponse s.rxlen s.rxByte = .error e) :
    t.err = errorCode (.decode e) ∧ t.rvalid = false ∧ t.record = RecordRegs.noValue := by
  obtain rfl := next_unique (exec_dec_error he) h
  obtain ⟨herr, hrv, -⟩ := raise_decode_flags e s.afterDecRead
  exact ⟨herr, hrv, rfl⟩

/-- DEC on bytes that decode: success, and the whole record (40_packet_codec.md R144). -/
theorem exec_dec_of_ok {s t : State} {p : NtpPacket} (h : exec .dec s = .next t)
    (hp : decodeResponse s.rxlen s.rxByte = .ok p) :
    t.err = 0#3 ∧ t.rvalid = true ∧ t.record = RecordRegs.ofPacket p := by
  rw [next_unique (exec_dec_ok hp) h]
  simp [successCode]

/-- DEC on a short buffer raises `ShortBuffer` and ends no draw, for it reads no byte (40_packet_codec.md R138). -/
theorem exec_dec_short {s : State} (hlen : s.rxlen.toNat < 48) :
    exec .dec s = .next (raise (.decode .shortBuffer) s) := by
  rw [exec_dec_error (decodeResponse_short hlen), State.afterDecRead, if_pos (show _ < pktLen from hlen)]

/-- DEC changes `STATUS`, the record and the draw counter and no other field (40_packet_codec.md R144). -/
theorem exec_dec_frame {s t : State} (h : exec .dec s = .next t) :
    t = { s with status := t.status, record := t.record, draws := t.draws } := by
  rcases exec_dec_cases s with ⟨-, e⟩ | ⟨-, -, e⟩ | ⟨-, -, -, e⟩ | ⟨-, -, -, e⟩ <;> rw [next_unique e h] <;> rfl

/-- The code DEC reports, by its checks in their priority (40_packet_codec.md R145, 60_exceptions.md R215). -/
theorem exec_dec_err {s t : State} (h : exec .dec s = .next t) :
    t.err = if s.rxlen.toNat < 48 then 1#3 else if flagsMode (s.rxByte 0) ≠ serverMode then 2#3
      else if s.rxByte 1 = 0#8 then 3#3 else 0#3 := by
  split_ifs with hlen hmode hstratum
  · exact (exec_dec_of_error h (decodeResponse_short hlen)).1
  · exact (exec_dec_of_error h (decodeResponse_mode (Nat.not_lt.mp hlen) hmode)).1
  · exact (exec_dec_of_error h (decodeResponse_kiss (Nat.not_lt.mp hlen) (not_not.mp hmode) hstratum)).1
  · exact (exec_dec_of_ok h (decodeResponse_ok (Nat.not_lt.mp hlen) (not_not.mp hmode) hstratum)).1

/-- After DEC a record is held exactly when it reports success (40_packet_codec.md R144). -/
theorem exec_dec_rvalid_iff {s t : State} (h : exec .dec s = .next t) : t.rvalid = true ↔ t.err = 0#3 := by
  obtain ⟨⟨herr, hrv⟩ | ⟨herr, hrv⟩, -⟩ := exec_dec_flags h
  · exact iff_of_true hrv herr
  · refine iff_of_false (by rw [hrv]; decide) fun h0 => ?_
    rw [h0] at herr
    exact absurd herr (by decide)

/-- Settles O19: one clause for each end of `decodeResponse`, then DEC's flags and its frame. -/
theorem decCommandRule : Obligations.DecCommandRule := by
  refine ⟨decode_encode .dec, fun s => ?_⟩
  obtain ⟨t, h⟩ := exec_completes .dec s
  obtain ⟨-, htv, hcv⟩ := exec_dec_flags h
  refine ⟨t, h, fun hlen => ?_, fun hlen hmode => exec_dec_of_error h (decodeResponse_mode hlen hmode),
    fun hlen hmode hstratum => exec_dec_of_error h (decodeResponse_kiss hlen hmode hstratum),
    fun hlen hmode hstratum => ?_, htv, hcv, exec_unusedField h, exec_dec_frame h⟩
  · obtain ⟨herr, hrv, hrec⟩ := exec_dec_of_error h (decodeResponse_short hlen)
    exact ⟨herr, hrv, hrec, by rw [next_unique (exec_dec_short hlen) h, raise_decode]⟩
  · obtain ⟨herr, hrv, hrec⟩ := exec_dec_of_ok h (decodeResponse_ok hlen hmode hstratum)
    refine ⟨herr, hrv, ?_⟩
    simp only [hrec, RecordRegs.ofPacket, recordOf, Option.map_some, bigEndian_eq_memRead4, and_self]

/-- Settles O20: each code is reported under its condition, and the conditions exclude each other. -/
theorem decEndsWithOneOfFourOutcomes : Obligations.DecEndsWithOneOfFourOutcomes := by
  intro s
  obtain ⟨t, h⟩ := exec_completes .dec s
  refine ⟨t, h, ?_⟩
  rw [exec_dec_rvalid_iff h, exec_dec_err h]
  split_ifs with hlen hmode hstratum
  · simp [DecAccepts, hlen]
  · simp [DecAccepts, Nat.not_lt.mp hlen, hmode]
  · simp [DecAccepts, Nat.not_lt.mp hlen, not_not.mp hmode, hstratum]
  · simp [DecAccepts, Nat.not_lt.mp hlen, not_not.mp hmode, hstratum]

/-- Settles O21: the code is decided by the three checks, and `RVALID` by the code. -/
theorem decChecksNothingElse : Obligations.DecChecksNothingElse := by
  intro s s' t t' h h' hlen hmode hstratum
  have herr : t.err = t'.err := by
    rw [exec_dec_err h, exec_dec_err h']
    simp only [hlen, hmode, hstratum]
  exact ⟨herr, Bool.eq_iff_iff.mpr (by rw [exec_dec_rvalid_iff h, exec_dec_rvalid_iff h', herr])⟩

/-- Settles O22: the first check ends the command with `RXBUF` untouched, so it stays as it was given. -/
theorem shortBufferIsNotRead : Obligations.ShortBufferIsNotRead :=
  ⟨fun _ _ hlen => decodeResponse_short hlen, fun s m hlen =>
    ⟨_, exec_dec_short hlen, (raise_decode_flags .shortBuffer s).1, exec_dec_short (s := s.withRxbuf m) hlen⟩⟩

/-- Settles O17: byte 0 of a request has client mode, which fails the second check. -/
theorem requestIsNotAResponse : Obligations.RequestIsNotAResponse := by
  intro s vn txen sec frac hlen himage
  obtain ⟨t, h⟩ := exec_completes .dec s
  have hflags : s.rxByte 0 = makeFlags 0#2 vn clientMode := by
    rw [rxByte_of_written (himage 0 (by omega)), encodeRequest_flags]
  have hmode : flagsMode (s.rxByte 0) ≠ serverMode := by
    rw [hflags, flagsMode_makeFlags]
    decide
  obtain ⟨herr, hrv, -⟩ := exec_dec_of_error h (decodeResponse_mode hlen hmode)
  exact ⟨t, h, herr, hrv⟩

end Sys2Proof.Machine

/-!
PROOFS. The family 41_time_converter.md: the conversion and its inverse, the ends and the frame of CONV, and its dates in era 0.
-/

namespace Sys2Proof.Machine

/-! ### The conversion -/

/-- A conversion fails exactly below the offset: the other arm succeeds (41_time_converter.md R162). -/
theorem toCalendarTime_eq_error_iff {s f : Word} :
    toCalendarTime s f = .error .beforeEpoch ↔ s.toNat < 2208988800 := by
  refine ⟨fun h => ?_, toCalendarTime_before⟩
  by_contra hs
  rw [toCalendarTime_after (Nat.not_lt.mp hs)] at h
  cases h

/-- Settles O27: failure is the comparison, and the subtraction of the other arm cannot borrow. -/
theorem toCalendarTimeIsTotal : Obligations.ToCalendarTimeIsTotal := fun _ _ =>
  ⟨toCalendarTime_eq_error_iff, fun hs => ⟨_, toCalendarTime_after hs, sub_epochOffset_toNat hs⟩⟩

/-- The seconds that come out and the offset add up to those that went in (41_time_converter.md R171 (e)). -/
theorem toCalendarTime_seconds {s f e q : Word} (h : toCalendarTime s f = .ok (e, q)) :
    e.toNat + 2208988800 = s.toNat := by
  obtain ⟨hs, rfl, -⟩ := toCalendarTime_ok h
  rw [sub_epochOffset_toNat hs, Nat.sub_add_cancel hs]

/-- A conversion takes the offset, as a number of 2^32nds of a second, from the 64-bit value. -/
theorem toCalendarTime_pairValue {s f e q : Word} (h : toCalendarTime s f = .ok (e, q)) :
    (pairValue e q).toNat + 2208988800 * 2 ^ 32 = (pairValue s f).toNat := by
  obtain ⟨-, -, rfl⟩ := toCalendarTime_ok h
  rw [pairValue_toNat, pairValue_toNat, ← toCalendarTime_seconds h]
  ring

/-! ### The reference inverse -/

theorem fromCalendarTime_of_le {e : Word} (q : Word) (h : e.toNat ≤ 2085978495) :
    fromCalendarTime e q = some (e + epochOffset, q) := if_pos h

/-- The addition of the inverse cannot wrap (41_time_converter.md R170). -/
theorem add_epochOffset_toNat {e : Word} (h : e.toNat ≤ 2085978495) :
    (e + epochOffset).toNat = e.toNat + 2208988800 :=
  BitVec.toNat_add_of_lt (Nat.lt_succ_of_le (Nat.add_le_add_right h 2208988800))

/-- Converting the inverse's seconds gives the epoch seconds back (41_time_converter.md R171 (a)). -/
theorem toCalendarTime_add_epochOffset {e : Word} (q : Word) (h : e.toNat ≤ 2085978495) :
    toCalendarTime (e + epochOffset) q = .ok (e, q) := by
  rw [toCalendarTime_after (by rw [add_epochOffset_toNat h]; omega), BitVec.add_sub_cancel]

/-- The inverse of converted seconds gives the seconds back (41_time_converter.md R171 (b)). -/
theorem fromCalendarTime_sub_epochOffset {s : Word} (f : Word) (h : 2208988800 ≤ s.toNat) :
    fromCalendarTime (s - epochOffset) f = some (s, f) := by
  rw [fromCalendarTime_of_le f (sub_epochOffset_le h), BitVec.sub_add_cancel]

/-- Settles O28: the two round trips, and three facts that follow from what failure and success mean. -/
theorem converterLaws : Obligations.ConverterLaws := by
  refine ⟨fun e q he => ⟨_, q, fromCalendarTime_of_le q he, toCalendarTime_add_epochOffset q he⟩,
    fun s f hs => ⟨_, f, toCalendarTime_after hs, fromCalendarTime_sub_epochOffset f hs⟩,
    fun s1 f1 s2 f2 e1 q1 e2 q2 hle h1 h2 => ?_, fun s s' f f' h hlt => ?_, fun s f e q => toCalendarTime_seconds⟩
  · rw [← toCalendarTime_pairValue h1, ← toCalendarTime_pairValue h2] at hle
    exact Nat.le_of_add_le_add_right hle
  · exact toCalendarTime_before (hlt.trans (toCalendarTime_eq_error_iff.mp h))

/-! ### CONV -/

/-- CONV below the offset: the error's code, and no calendar time (41_time_converter.md R165). -/
theorem exec_conv_of_before {s t : State} (h : exec .conv s = .next t) (hs : s.convSec.toNat < 2208988800) :
    t.err = 4#3 ∧ t.cvalid = false ∧ t.epoch = none ∧ t.subsec = none := by
  obtain rfl := next_unique (exec_conv_error (toCalendarTime_before hs)) h
  obtain ⟨herr, hcv, -⟩ := raise_conversion_flags .beforeEpoch s
  exact ⟨herr, hcv, rfl, rfl⟩

/-- CONV from the offset on: success, the difference, and the fraction (41_time_converter.md R165). -/
theorem exec_conv_of_after {s t : State} (h : exec .conv s = .next t) (hs : 2208988800 ≤ s.convSec.toNat) :
    t.err = 0#3 ∧ t.cvalid = true ∧ t.epoch = some (s.convSec - epochOffset) ∧ t.subsec = some s.convFrac := by
  rw [next_unique (exec_conv_ok (toCalendarTime_after hs)) h]
  simp [successCode]

/-- CONV changes `STATUS`, `EPOCH` and `SUBSEC` and no other field (41_time_converter.md R165). -/
theorem exec_conv_frame {s t : State} (h : exec .conv s = .next t) :
    t = { s with status := t.status, epoch := t.epoch, subsec := t.subsec } := by
  rcases exec_conv_cases s with ⟨-, e⟩ | ⟨-, e⟩ <;> rw [next_unique e h] <;> rfl

/-- The number CONV leaves in `EPOCH` on success: its subtraction cannot borrow (41_time_converter.md R163). -/
theorem exec_conv_epoch_toNat {s t : State} (h : exec .conv s = .next t) (hs : 2208988800 ≤ s.convSec.toNat) :
    t.epoch.map BitVec.toNat = some (s.convSec.toNat - 2208988800) := by
  obtain ⟨-, -, hep, -⟩ := exec_conv_of_after h hs
  rw [hep, Option.map_some, sub_epochOffset_toNat hs]

/-- Settles O26: one clause for each end of the conversion, then CONV's flags and its frame. -/
theorem convCommandRule : Obligations.ConvCommandRule := by
  refine ⟨decode_encode .conv, fun s => ?_⟩
  obtain ⟨t, h⟩ := exec_completes .conv s
  obtain ⟨-, htv, hrv⟩ := exec_conv_flags h
  refine ⟨t, h, exec_conv_of_before h, fun hs => ?_, htv, hrv, exec_unusedField h, exec_conv_frame h⟩
  obtain ⟨herr, hcv, -, hsub⟩ := exec_conv_of_after h hs
  exact ⟨herr, hcv, exec_conv_epoch_toNat h hs, sub_epochOffset_toNat hs ▸ sub_epochOffset_le hs, hsub⟩

/-! ### The eras -/

/-- In era 0 the seconds field is the true time (41_time_converter.md R166). -/
theorem secondsField_toNat_of_inEra0 {T : Nat} (h : InEra0 T) : (secondsField T).toNat = T :=
  BitVec.toNat_ofNat T 32 ▸ Nat.mod_eq_of_lt h

/-- In the era after the rollover the seconds field restarts at zero (41_time_converter.md R167). -/
theorem secondsField_toNat_after_rollover {T : Nat} (h : 2 ^ 32 ≤ T) (hT : T < 2 ^ 33) :
    (secondsField T).toNat = T - 2 ^ 32 := by
  rw [secondsField, BitVec.toNat_ofNat]
  omega

/-- Settles O29: in era 0 the field is the true time; after the rollover it is the time since then, below the offset. -/
theorem convIsRightInEra0 : Obligations.ConvIsRightInEra0 := by
  refine ⟨fun s T hera hT hfield => ?_, fun s T hroll hT hfield => ?_⟩ <;>
    obtain ⟨t, h⟩ := exec_completes .conv s
  · have hsec : s.convSec.toNat = T := hfield ▸ secondsField_toNat_of_inEra0 hera
    exact ⟨t, h, hsec ▸ exec_conv_epoch_toNat h (hsec ▸ hT)⟩
  · have hsec : s.convSec.toNat < 2208988800 := by
      rw [hfield, secondsField_toNat_after_rollover hroll (by omega)]
      omega
    obtain ⟨herr, -, hep, -⟩ := exec_conv_of_before h hsec
    exact ⟨t, h, herr, hep⟩

end Sys2Proof.Machine

/-!
PROOFS. The family 42_host_sequence.md: the contract of the host, and the steps of one call of `synchronize`: the request, the
exchange with its retries, and what becomes of a response.
-/

namespace Sys2Proof.Machine

/-! ### The host's contract -/

/-- For every register but `CMD` the contract on writes is the access column and the width (42_host_sequence.md R200). -/
theorem legal_regWrite {s : State} {r : Reg} {d : Data} (h : r ≠ .cmd) :
    Event.legal s (.host (.regWrite r d)) ↔ r.access = .rw ∧ d.fits r.width = true := by
  rw [Event.legal]
  exact h

/-- An event that completes is one the contract allows: each effect names the access it took (10_state.md R43). -/
theorem legal_of_handle {e : Event} {s t : State} (h : handle e s = .next t) : e.legal s := by
  cases handle_next h with
  | command i d he hd hi ht =>
    subst he
    rw [data_eq_encode hd hi]
    cases i <;> exact ⟨by decide, by decide, by decide⟩
  | store r d he hr hd ht =>
    subst he
    exact (legal_regWrite (by rintro rfl; cases hr)).mpr ⟨hr, hd⟩
  | read r d he hr hv ht => subst he; exact ⟨hr, Option.isSome_of_eq_some hv⟩
  | putByte a d he ha hd ht => subst he; exact ⟨rfl, ha, hd⟩
  | getByte sp a b n he ha ht =>
    subst he
    obtain ⟨_, _, -, htx, -⟩ := bufRead_next (bufRead_of_perform h)
    cases sp with
    | tx => exact ⟨ha, Option.isSome_of_eq_some (htx rfl)⟩
    | rx => exact ha
  | reset he ht => subst he; trivial

/-- A code from 1 to 3 is that of a command (30_encoding.md R110). -/
theorem eq_commandTxn {d : Data} (hd : d.fits 8 = true) (h1 : 1 ≤ d.value) (h3 : d.value ≤ 3) :
    ∃ i, Txn.regWrite .cmd d = commandTxn i := by
  obtain ⟨w, v⟩ := d
  obtain ⟨rfl, -⟩ := Data.fits_iff.mp hd
  obtain rfl | rfl | rfl : v = 1 ∨ v = 2 ∨ v = 3 := by simp only at h1 h3; omega
  exacts [⟨.enc, rfl⟩, ⟨.dec, rfl⟩, ⟨.conv, rfl⟩]

/-- An event the contract allows completes, by the access right it names (10_state.md R43). -/
theorem handle_completes {e : Event} {s : State} (h : e.legal s) : ∃ t, handle e s = .next t := by
  obtain ⟨hread, hwrite, hcommand, hreadTx, hreadRx, hput, -⟩ := accessRights s
  rcases e with (⟨r, d⟩ | r | ⟨sp, a, d⟩ | ⟨sp, a⟩) | _ | _
  · by_cases hr : r = .cmd
    · subst hr
      obtain ⟨hd, h1, h3⟩ := h
      obtain ⟨i, hi⟩ := eq_commandTxn hd h1 h3
      exact hi ▸ hcommand i
    · obtain ⟨hrw, hd⟩ := (legal_regWrite hr).mp h
      exact hwrite r d hrw hd
  · exact perform_read_completes h.1 h.2
  · obtain ⟨rfl, ha, hd⟩ := h
    exact hput a d ha hd
  · cases sp with
    | tx =>
      obtain ⟨ha, hv⟩ := h
      obtain ⟨b, hb⟩ := Option.isSome_iff_exists.mp hv
      exact ⟨_, hreadTx a b ha hb⟩
    | rx => exact hreadRx a h
  · exact ⟨_, rfl⟩
  · exact h.elim

/-- Settles O44: a step is the event at the front, and that event completes exactly when it is legal. -/
theorem stepCompletesExactlyOnLegalEvents : Obligations.StepCompletesExactlyOnLegalEvents := by
  intro s e rest hinbox
  rw [step_cons hinbox]
  exact ⟨fun ⟨_, h⟩ => legal_of_handle h, handle_completes⟩

/-! ### A step is the work of its phase -/

section Phases

variable {s : SyncState}

theorem syncStep_requesting (hp : s.phase = .requesting) : syncStep s = requestStep s := by simp only [syncStep, hp]

/-- A step of a call with no endpoint in hand is `open`. -/
theorem syncStep_unopened (hp : s.phase = .awaitingResponse) (he : s.endpoint = none) :
    syncStep s = .next (openStep s) := by
  simp only [syncStep, hp, awaitStep, he]

theorem syncStep_validating (hp : s.phase = .validating) : syncStep s = validateStep s := by simp only [syncStep, hp]

theorem syncStep_converting (hp : s.phase = .converting) : syncStep s = convertStep s := by simp only [syncStep, hp]

/-- A call that has ended stays as it is (42_host_sequence.md R186). -/
theorem syncStep_done (hp : s.phase.isDone = true) : syncStep s = .next s := by
  cases h : s.phase <;> simp [h, SyncPhase.isDone] at hp <;> simp only [syncStep, h]

/-- A step from Validating or Converting changes the block only, and goes on to Converting or ends the call
(42_host_sequence.md R197). -/
theorem syncStep_goesOn {t : SyncState} (hp : s.phase = .validating ∨ s.phase = .converting) (h : syncStep s = .next t) :
    SameCall s t ∧ (t.phase.isDone = true ∨ s.phase = .validating ∧ t.phase = .converting) := by
  rcases hp with hp | hp
  · obtain ⟨hs, ht⟩ := validateStep_next (syncStep_validating hp ▸ h)
    exact ⟨hs, ht.symm.imp_right fun hc => ⟨hp, hc⟩⟩
  · obtain ⟨hs, ht⟩ := convertStep_next (syncStep_converting hp ▸ h)
    exact ⟨hs, .inl ht⟩

end Phases

/-! ### Requesting -/

/-- A `WR` line of an operand register stores a value that fits it (30_encoding.md R118). -/
theorem perform_wrTxn {r : Reg} {v : Nat} (hr : r.access = .rw) (hv : v < 2 ^ r.width) (s : State) :
    perform (wrTxn r v) s = .next (s.storeReg r v) :=
  perform_write hr (Data.fits_iff.mpr ⟨rfl, hv⟩)

/-- A transaction that completes, and then the others from the state it leaves. -/
theorem issueAll_cons_next {t : Txn} {s s' : State} (h : perform t s = .next s') (ts : List Txn) :
    issueAll (t :: ts) s = issueAll ts s' := by
  rw [issueAll, h]

/-- The block with the configuration's version and transmit timestamp in ENC's operands (42_host_sequence.md R188). -/
def SyncConfig.configure (cfg : SyncConfig) (s : State) : State :=
  { s with
    cfgVn := cfg.version.getD s.cfgVn
    cfgTxen := if cfg.transmit.isSome then 1#1 else 0#1
    txSec := (cfg.transmit.map Timestamp.seconds).getD s.txSec
    txFrac := (cfg.transmit.map Timestamp.fraction).getD s.txFrac }

/-- A transmit timestamp in the configuration is in the request (40_packet_codec.md R133) ... -/
theorem encodeRequest_configure_some {cfg : SyncConfig} {ts : Timestamp} (h : cfg.transmit = some ts) (s : State) :
    encodeRequest (cfg.configure s).cfgVn (cfg.configure s).cfgTxen (cfg.configure s).txSec (cfg.configure s).txFrac =
      encodeRequest (cfg.version.getD s.cfgVn) 1#1 ts.seconds ts.fraction := by
  simp [SyncConfig.configure, h]

/-- ... and without one the request has zeros in its place, whatever the operands hold (40_packet_codec.md R133). -/
theorem encodeRequest_configure_none {cfg : SyncConfig} (h : cfg.transmit = none) (s : State) :
    encodeRequest (cfg.configure s).cfgVn (cfg.configure s).cfgTxen (cfg.configure s).txSec (cfg.configure s).txFrac =
      encodeRequest (cfg.version.getD s.cfgVn) 0#1 0#32 0#32 := by
  simp [SyncConfig.configure, h, encodeRequest, requestTransmit]

/-- Before ENC, Requesting writes the operands the caller configured (42_host_sequence.md R188). -/
theorem issueAll_requestTxns (cfg : SyncConfig) (s : State) :
    issueAll (requestTxns cfg) s = issueAll (commandTxn .enc :: rdtxTxns) (cfg.configure s) := by
  have hvn (v : BitVec 3) := perform_wrTxn (r := .cfgVn) rfl v.isLt
  have hon := perform_wrTxn (r := .cfgTxen) (v := 1) rfl (by decide)
  have hoff := perform_wrTxn (r := .cfgTxen) (v := 0) rfl (by decide)
  have hsec (w : Word) := perform_wrTxn (r := .txSec) rfl w.isLt
  have hfrac (w : Word) := perform_wrTxn (r := .txFrac) rfl w.isLt
  cases hv : cfg.version <;> cases ht : cfg.transmit <;>
    simp [requestTxns, hv, ht, issueAll, hvn, hon, hoff, hsec, hfrac, State.storeReg, SyncConfig.configure]

/-- An image is its bytes in order. -/
theorem map_imageByte_range (img : List Byte) : (List.range img.length).map (imageByte img) = img :=
  List.ext_getElem (by simp) fun a _ ha => by simp [imageByte, List.getD_eq_getElem?_getD, ha]

/-- The 48 bytes read from `TXBUF`, in order, are what the host takes for the request (42_host_sequence.md R188). -/
theorem bytes_of_reads (img : List Byte) (h : img.length = pktLen) (rs : List ReadResult) :
    ((((List.range pktLen).map fun a => ReadResult.buf .tx a (imageByte img a)).reverse ++ rs).take pktLen).reverse.filterMap
      ReadResult.byte = img := by
  have hbyte : (ReadResult.byte ∘ fun a => ReadResult.buf .tx a (imageByte img a)) = some ∘ imageByte img := rfl
  rw [List.take_left' (by simp), List.reverse_reverse, List.filterMap_map, hbyte, List.filterMap_eq_map, ← h,
    map_imageByte_range]

theorem encodeRequest_length (vn : BitVec 3) (txen : BitVec 1) (sec frac : Word) :
    (encodeRequest vn txen sec frac).length = pktLen := by simp [encodeRequest, pktLen]

/-- ENC and the 48 reads complete on every block and give the host the request of its operands (42_host_sequence.md R188). -/
theorem issueAll_enc_rdtx (s : State) :
    ∃ b, issueAll (commandTxn .enc :: rdtxTxns) s = .next b ∧
      ((b.returned.take pktLen).reverse).filterMap ReadResult.byte = encodeRequest s.cfgVn s.cfgTxen s.txSec s.txFrac ∧
      b.err = 0#3 ∧ b.tvalid = true := by
  obtain ⟨t, ht⟩ := exec_completes .enc s
  obtain ⟨herr, htv, -⟩ := exec_enc_flags ht
  rw [issueAll_cons_next ((perform_command .enc s).trans ht), rdtxTxns,
    issueAll_reads (imageByte (encodeRequest s.cfgVn s.cfgTxen s.txSec s.txFrac)) (List.range pktLen) t
      (fun a ha => List.mem_range.mp ha) (fun a ha => exec_enc_txbuf ht ha)]
  exact ⟨_, rfl, bytes_of_reads _ (encodeRequest_length _ _ _ _) _, herr, htv⟩

/-- All that Requesting can do: it completes, whatever the block held (42_host_sequence.md R188). -/
theorem requestStep_eq (s : SyncState) :
    ∃ b, b.err = 0#3 ∧ b.tvalid = true ∧
      requestStep s = .next { s with
        block := b
        request := encodeRequest (s.cfg.configure s.block).cfgVn (s.cfg.configure s.block).cfgTxen
          (s.cfg.configure s.block).txSec (s.cfg.configure s.block).txFrac
        phase := .awaitingResponse } := by
  obtain ⟨b, hb, hbytes, herr, htv⟩ := issueAll_enc_rdtx (s.cfg.configure s.block)
  exact ⟨b, herr, htv, by rw [requestStep, issueAll_requestTxns, hb, ← hbytes]⟩

/-- Settles O49: the bytes read are the request of the configured operands. -/
theorem requestingReadsTheConfiguredRequest : Obligations.RequestingReadsTheConfiguredRequest := by
  intro s hp
  obtain ⟨b, herr, htv, h⟩ := requestStep_eq s
  refine ⟨_, (syncStep_requesting hp).trans h, rfl, ?_, rfl, herr, htv⟩
  split
  · exact encodeRequest_configure_some ‹_› s.block
  · exact encodeRequest_configure_none ‹_› s.block

/-! ### What a step can do -/

/-- All that `open` can do (42_host_sequence.md R181, R196): end the call for want of a path, or acquire an endpoint. -/
theorem openStep_cases (s : SyncState) :
    (∃ rest, s.routes = false :: rest ∧ openStep s = ({ s with routes := rest }).fail .connectNoRoute) ∨
    (s.routes.head? ≠ some false ∧ openStep s = ({ s with routes := s.routes.tail }).acquire) := by
  rcases h : s.routes with _ | ⟨_ | _, rest⟩
  · exact .inr ⟨nofun, by simp [openStep, h, SyncState.acquire]⟩
  · exact .inl ⟨rest, rfl, by simp [openStep, h]⟩
  · exact .inr ⟨nofun, by simp [openStep, h]⟩

/-- A transient failure with an endpoint in hand: the endpoint is released, and a retry is used or the call ends
(42_host_sequence.md R184, R195). -/
theorem transient_eq {s : SyncState} {x : Session} (h : s.endpoint = some x) (e : SyncError) :
    s.transient e = { s with
      endpoint := none
      released := s.released + 1
      retries := if s.retries < s.cfg.maxRetries then s.retries + 1 else s.retries
      phase := if s.retries < s.cfg.maxRetries then s.phase else .doneFailure e } := by
  rw [SyncState.transient, release_of_some h]
  split <;> rfl

section Wait

variable {s : SyncState} {rest : List NetEvent}

/-- With nothing listed the deadline passes (assumption log 14). -/
theorem waitStep_nil (h : s.net = []) : waitStep s = .next (s.transient .timeout) := by simp only [waitStep, h]

theorem waitStep_deadline (h : s.net = .deadline :: rest) :
    waitStep s = .next (({ s with net := rest }).transient .timeout) := by simp only [waitStep, h]

theorem waitStep_ioFailure (h : s.net = .ioFailure :: rest) :
    waitStep s = .next (({ s with net := rest }).transient .io) := by simp only [waitStep, h]

variable {address port : Nat} {payload : List Byte}

/-- A datagram from the address and port of the configuration is the response (42_host_sequence.md R182). -/
theorem waitStep_response (h : s.net = .datagram address port payload :: rest)
    (hr : (NetEvent.datagram address port payload).isResponse s.cfg = true) :
    waitStep s = receiveStep { s with net := rest } payload := by simp only [waitStep, h, if_pos hr]

/-- A datagram from elsewhere does not end the wait (42_host_sequence.md R182). -/
theorem waitStep_foreign (h : s.net = .datagram address port payload :: rest)
    (hr : (NetEvent.datagram address port payload).isResponse s.cfg = false) :
    waitStep s = .next { s with net := rest } := by simp only [waitStep, h, hr, Bool.false_eq_true, if_false]

end Wait

/-- The response releases the endpoint in hand (42_host_sequence.md R184, R189). -/
theorem receiveStep_of_some {s : SyncState} {x : Session} {payload : List Byte} (h : s.endpoint = some x) :
    receiveStep s payload = .next { s.stampReceive with
      endpoint := none
      released := s.released + 1
      block := (s.block.storeReg .rxlen (min payload.length 65535)).withRxbuf (s.block.rxbuf.store 0 (payload.take 48))
      phase := .validating } := by
  rw [receiveStep_eq, release_of_some (show s.stampReceive.endpoint = some x from h)]
  rfl

/-- All that one event of a wait can do (42_host_sequence.md R182): end it in a failure, leave it, or be the response. -/
theorem waitStep_cases (s : SyncState) :
    (∃ rest e, waitStep s = .next (({ s with net := rest }).transient e)) ∨
    (∃ rest, waitStep s = .next { s with net := rest }) ∨
    ∃ rest payload, waitStep s = receiveStep { s with net := rest } payload := by
  rcases h : s.net with _ | ⟨⟨address, port, payload⟩ | _ | _, rest⟩
  · exact .inl ⟨s.net, .timeout, waitStep_nil h⟩
  · cases hr : (NetEvent.datagram address port payload).isResponse s.cfg with
    | true => exact .inr (.inr ⟨rest, payload, waitStep_response h hr⟩)
    | false => exact .inr (.inl ⟨rest, waitStep_foreign h hr⟩)
  · exact .inl ⟨rest, .timeout, waitStep_deadline h⟩
  · exact .inl ⟨rest, .io, waitStep_ioFailure h⟩

/-- All that a completed step of the host's machine can do. -/
inductive SyncEffect (s t : SyncState) : Prop where
  | starts (hp : s.phase = .idle) (ht : t = { s with phase := .requesting })
  | requests (b : State) (bytes : List Byte) (hp : s.phase = .requesting)
      (ht : t = { s with block := b, request := bytes, phase := .awaitingResponse })
  | noRoute (rest : List Bool) (hp : s.phase = .awaitingResponse) (he : s.endpoint = none)
      (ht : t = ({ s with routes := rest }).fail .connectNoRoute)
  | opens (rest : List Bool) (hp : s.phase = .awaitingResponse) (he : s.endpoint = none)
      (ht : t = ({ s with routes := rest }).acquire)
  | sends (localPort : Nat) (rest : List Bool) (hp : s.phase = .awaitingResponse)
      (he : s.endpoint = some (.opened localPort))
      (ht : t = ({ s with sends := rest }).stampTransmit.send localPort)
  | sendFails (localPort : Nat) (rest : List Bool) (hp : s.phase = .awaitingResponse)
      (he : s.endpoint = some (.opened localPort)) (ht : t = ({ s with sends := rest }).stampTransmit.transient .io)
  | waitFails (localPort : Nat) (rest : List NetEvent) (e : SyncError) (hp : s.phase = .awaitingResponse)
      (he : s.endpoint = some (.waiting localPort)) (ht : t = ({ s with net := rest }).transient e)
  | waitsOn (localPort : Nat) (rest : List NetEvent) (hp : s.phase = .awaitingResponse)
      (he : s.endpoint = some (.waiting localPort)) (ht : t = { s with net := rest })
  | receives (localPort : Nat) (rest : List NetEvent) (b : State) (hp : s.phase = .awaitingResponse)
      (he : s.endpoint = some (.waiting localPort))
      (ht : t = { ({ s with net := rest }).stampReceive with
        endpoint := none, released := s.released + 1, block := b, phase := .validating })
  | goesOn (hp : s.phase = .validating ∨ s.phase = .converting) (hs : SameCall s t)
  | ended (hp : s.phase.isDone = true) (ht : t = s)

/-- AwaitingResponse by what is in hand: no endpoint, an open one, or one whose request is sent (R189). -/
theorem SyncEffect.of_awaiting {s t : SyncState} (hp : s.phase = .awaitingResponse) (h : syncStep s = .next t) :
    SyncEffect s t := by
  rcases he : s.endpoint with _ | localPort | localPort
  · rw [syncStep_unopened hp he] at h
    cases h
    rcases openStep_cases s with ⟨rest, -, ht⟩ | ⟨-, ht⟩
    · exact .noRoute rest hp he ht
    · exact .opens _ hp he ht
  · rw [syncStep_opened hp he] at h
    cases h
    rcases sendStep_cases s localPort with ⟨rest, -, ht⟩ | ⟨-, ht⟩
    · exact .sendFails localPort rest hp he ht
    · exact .sends localPort _ hp he ht
  · rw [syncStep_waiting hp he] at h
    rcases waitStep_cases s with ⟨rest, e, ht⟩ | ⟨rest, ht⟩ | ⟨rest, payload, ht⟩ <;> rw [ht] at h
    · cases h; exact .waitFails localPort rest e hp he rfl
    · cases h; exact .waitsOn localPort rest hp he rfl
    · rw [receiveStep_of_some (show ({ s with net := rest } : SyncState).endpoint = _ from he)] at h
      cases h; exact .receives localPort rest _ hp he rfl

/-- All that a completed step can do, by the phase it starts from (42_host_sequence.md R186). -/
theorem syncStep_next {s t : SyncState} (h : syncStep s = .next t) : SyncEffect s t := by
  cases hp : s.phase with
  | idle =>
    simp only [syncStep, hp] at h
    cases h; exact .starts hp rfl
  | requesting =>
    obtain ⟨b, -, -, hb⟩ := requestStep_eq s
    rw [syncStep_requesting hp, hb] at h
    cases h; exact .requests b _ hp rfl
  | awaitingResponse => exact .of_awaiting hp h
  | validating => exact .goesOn (.inl hp) (syncStep_goesOn (.inl hp) h).1
  | converting => exact .goesOn (.inr hp) (syncStep_goesOn (.inr hp) h).1
  | doneSuccess r =>
    have hd : s.phase.isDone = true := hp ▸ rfl
    rw [syncStep_done hd] at h
    cases h; exact .ended hd rfl
  | doneFailure e =>
    have hd : s.phase.isDone = true := hp ▸ rfl
    rw [syncStep_done hd] at h
    cases h; exact .ended hd rfl

/-! ### What every step keeps -/

/-- Settles O54: such a step changes nothing but the block and the phase. -/
theorem structuralFailuresAreNotRetried : Obligations.StructuralFailuresAreNotRetried := by
  intro s t hp h
  obtain ⟨hs, ht⟩ := syncStep_goesOn hp h
  exact ⟨hs ▸ rfl, hs ▸ rfl, hs ▸ rfl, ht⟩

/-- A transient failure keeps the account of endpoints (42_host_sequence.md R184). -/
theorem endpointOk_transient {s : SyncState} {x : Session} {e : SyncError} (hi : EndpointOk s) (he : s.endpoint = some x) :
    EndpointOk (s.transient e) := by
  obtain ⟨hcount, -⟩ := hi
  rw [transient_eq he]
  exact ⟨by simpa [he] using hcount, fun _ => rfl⟩

/-- Every effect of a step keeps the account of endpoints (42_host_sequence.md R184). -/
theorem SyncEffect.keeps_endpointOk {s t : SyncState} (h : SyncEffect s t) (hi : EndpointOk s) : EndpointOk t := by
  obtain ⟨hcount, hnone⟩ := hi
  cases h with
  | starts hp ht => subst ht; exact ⟨hcount, fun _ => hnone (by simp [hp])⟩
  | requests b bytes hp ht => subst ht; exact ⟨hcount, fun h => absurd rfl h⟩
  | noRoute rest hp he ht => subst ht; exact ⟨hcount, fun _ => he⟩
  | opens rest hp he ht => subst ht; exact ⟨by simpa [he, SyncState.acquire] using hcount, fun h => absurd hp h⟩
  | sends localPort rest hp he ht =>
    subst ht
    exact ⟨by simpa [he, SyncState.send, SyncState.stampTransmit] using hcount, fun h => absurd hp h⟩
  | sendFails localPort rest hp he ht => subst ht; exact endpointOk_transient ⟨hcount, hnone⟩ he
  | waitFails localPort rest e hp he ht => subst ht; exact endpointOk_transient ⟨hcount, hnone⟩ he
  | waitsOn localPort rest hp he ht => subst ht; exact ⟨hcount, hnone⟩
  | receives localPort rest b hp he ht =>
    subst ht
    exact ⟨by simpa [he, SyncState.stampReceive] using hcount, fun _ => rfl⟩
  | goesOn hp hs =>
    rw [hs]
    exact ⟨hcount, fun _ => hnone (by rcases hp with hp | hp <;> simp [hp])⟩
  | ended hp ht => subst ht; exact ⟨hcount, hnone⟩

/-- Settles O52: a call starts with no endpoint, and every effect of a step keeps the account of them. -/
theorem endpointsAreReleased : Obligations.EndpointsAreReleased :=
  ⟨fun _ _ _ _ _ => ⟨rfl, fun _ => rfl⟩, fun _ _ hi h => (syncStep_next h).keeps_endpointOk hi⟩

/-- Where no response is in hand and none is waited for, the instants have only to be past (42_host_sequence.md R183). -/
theorem instantsOk_of_past {s : SyncState} (hpast : ∀ t ∈ s.transmitInstant, t ≤ localClock s.clockReads)
    (he : s.endpoint = none) (hv : s.phase ≠ .validating) (hc : s.phase ≠ .converting) : InstantsOk s where
  past := hpast
  waiting _ h := by rw [he] at h; cases h
  received h := (h.elim hv hc).elim

/-- A transient failure leaves the instants as they are (42_host_sequence.md R183). -/
theorem instantsOk_transient {s : SyncState} {x : Session} {e : SyncError}
    (hpast : ∀ t ∈ s.transmitInstant, t ≤ localClock s.clockReads)
    (hp : s.phase = .awaitingResponse) (he : s.endpoint = some x) : InstantsOk (s.transient e) := by
  rw [transient_eq he]
  exact instantsOk_of_past hpast rfl (by simp only [hp]; split <;> nofun) (by simp only [hp]; split <;> nofun)

/-- The instant recorded before sending is past from the next reading on (42_host_sequence.md R183). -/
theorem stampTransmit_past (s : SyncState) :
    ∀ t ∈ s.stampTransmit.transmitInstant, t ≤ localClock s.stampTransmit.clockReads := by
  rintro t ⟨⟩
  exact localClock_le_succ _

/-- Every effect of a step keeps the instants in order (42_host_sequence.md R183). -/
theorem SyncEffect.keeps_instantsOk {s t : SyncState} (h : SyncEffect s t) (hi : InstantsOk s) : InstantsOk t := by
  cases h with
  | starts hp ht => subst ht; exact ⟨hi.past, hi.waiting, by simp⟩
  | requests b bytes hp ht => subst ht; exact ⟨hi.past, hi.waiting, by simp⟩
  | noRoute rest hp he ht => subst ht; exact instantsOk_of_past hi.past he nofun nofun
  | opens rest hp he ht => subst ht; exact ⟨hi.past, nofun, by simp [SyncState.acquire, hp]⟩
  | sends localPort rest hp he ht =>
    subst ht
    exact ⟨stampTransmit_past _, fun _ _ => rfl, by simp [SyncState.send, SyncState.stampTransmit, hp]⟩
  | sendFails localPort rest hp he ht =>
    subst ht
    exact instantsOk_transient (stampTransmit_past _) hp he
  | waitFails localPort rest e hp he ht =>
    subst ht
    exact instantsOk_transient hi.past hp he
  | waitsOn localPort rest hp he ht => subst ht; exact ⟨hi.past, hi.waiting, hi.received⟩
  | receives localPort rest b hp he ht =>
    obtain ⟨t₀, ht₀⟩ := Option.isSome_iff_exists.mp (hi.waiting localPort he)
    have hle : t₀ ≤ localClock s.clockReads := hi.past t₀ ht₀
    subst ht
    exact ⟨fun t h => Nat.le_trans (hi.past t h) (localClock_le_succ _), nofun, fun _ => ⟨t₀, _, ht₀, rfl, hle⟩⟩
  | goesOn hp hs =>
    rw [hs]
    exact ⟨hi.past, hi.waiting, fun _ => hi.received hp⟩
  | ended hp ht => subst ht; exact hi

/-- Settles O58: a call starts with no instant recorded, and every effect of a step keeps them in order. -/
theorem localInstantsAreOrdered : Obligations.LocalInstantsAreOrdered :=
  ⟨fun _ _ _ _ _ => instantsOk_of_past nofun rfl nofun nofun, fun _ _ hi h => (syncStep_next h).keeps_instantsOk hi,
    fun _ hi => hi.received⟩

/-! ### The exchange -/

/-- Where no failure to send is listed, the request goes out (42_host_sequence.md R182). -/
theorem syncStep_sends {s : SyncState} {localPort : Nat} (hp : s.phase = .awaitingResponse)
    (he : s.endpoint = some (.opened localPort)) (hsends : s.sends.head? ≠ some false) :
    syncStep s = .next (({ s with sends := s.sends.tail }).stampTransmit.send localPort) := by
  rcases sendStep_cases s localPort with ⟨rest, hfail, -⟩ | ⟨-, hsend⟩
  · exact absurd (by rw [hfail]; rfl) hsends
  · rw [syncStep_opened hp he, hsend]

/-- Settles O60: with no failure to send listed, the step is the send. -/
theorem requestGoesOutAsOneDatagram : Obligations.RequestGoesOutAsOneDatagram := fun _ _ hp he hsends =>
  ⟨_, syncStep_sends hp he hsends, rfl, rfl, rfl, hp, rfl, rfl, rfl⟩

/-- Settles O51: the datagram is no response. -/
theorem foreignDatagramsDoNotEndTheWait : Obligations.ForeignDatagramsDoNotEndTheWait := by
  intro s localPort address port payload rest hp he hnet hforeign
  have hr : (NetEvent.datagram address port payload).isResponse s.cfg = false := by
    rw [Bool.eq_false_iff, ne_eq, isResponse_datagram, not_and_or]
    exact hforeign
  rw [syncStep_waiting hp he, waitStep_foreign hnet hr]

/-- What a transient failure leaves of the call, with retries left and with none (42_host_sequence.md R184, R195). -/
theorem transient_outcome {s : SyncState} {x : Session} {e : SyncError} (hp : s.phase = .awaitingResponse)
    (he : s.endpoint = some x) :
    (s.transient e).endpoint = none ∧ (s.transient e).released = s.released + 1 ∧
    (s.transient e).acquired = s.acquired ∧ (s.transient e).sent = s.sent ∧ (s.transient e).block = s.block ∧
    (s.retries < s.cfg.maxRetries →
      (s.transient e).phase = .awaitingResponse ∧ (s.transient e).retries = s.retries + 1) ∧
    (s.cfg.maxRetries ≤ s.retries → (s.transient e).phase = .doneFailure e) := by
  rw [transient_eq he]
  exact ⟨rfl, rfl, rfl, rfl, rfl, fun h => by simp [h, hp], fun h => by simp [Nat.not_lt.mpr h]⟩

/-- Settles O59: each of the three is a transient failure. -/
theorem transientFailuresAreRetried : Obligations.TransientFailuresAreRetried := by
  rintro s localPort e hp (⟨he, hfail, rfl⟩ | ⟨he, hfail, rfl⟩ | ⟨he, hfail, rfl⟩)
  · rcases sendStep_cases s localPort with ⟨rest, -, hsend⟩ | ⟨hsends, -⟩
    · exact ⟨_, (syncStep_opened hp he).trans (congrArg _ hsend), transient_outcome hp he⟩
    · exact absurd hfail hsends
  · obtain ⟨rest, hnet⟩ := List.head?_eq_some_iff.mp hfail
    exact ⟨_, (syncStep_waiting hp he).trans (waitStep_ioFailure hnet), transient_outcome hp he⟩
  · obtain ⟨rest, hnet⟩ := List.head?_eq_some_iff.mp hfail
    exact ⟨_, (syncStep_waiting hp he).trans (waitStep_deadline hnet), transient_outcome hp he⟩

/-- What a payload loaded from address 0 leaves at every address: its first 48 bytes, as far as it has them (20_memory.md
R68). -/
theorem read_store_payload (m : Memory) (payload : List Byte) (a : Nat) :
    (m.store 0 (payload.take 48)).read a = if a < min 48 payload.length then payload[a]? else m.read a := by
  rw [Memory.read_store, List.length_take, Nat.zero_add, Nat.sub_zero]
  by_cases ha : a < min 48 payload.length
  · rw [if_pos ⟨Nat.zero_le a, ha⟩, if_pos ha, List.getElem?_take_of_lt (by omega)]
  · rw [if_neg (fun h => ha h.2), if_neg ha]

/-- Settles O50: `LDRX` writes the length and the first 48 bytes, from address 0 on. -/
theorem responseGoesToTheReceiveBuffer : Obligations.ResponseGoesToTheReceiveBuffer := by
  intro s localPort payload rest hp he hnet
  have hr := (isResponse_datagram s.cfg _ _ payload).mpr ⟨rfl, rfl⟩
  refine ⟨_, (syncStep_waiting hp he).trans ((waitStep_response hnet hr).trans (receiveStep_of_some he)),
    rfl, rfl, rfl, ?_, fun a h48 hlen => ?_, fun a ha => ?_, rfl, rfl⟩
  · simp only [withRxbuf_rxlen, State.storeReg, BitVec.toNat_ofNat]
    omega
  · exact (read_store_payload _ payload a).trans (if_pos (by omega))
  · exact (read_store_payload _ payload a).trans (if_neg (by omega))

/-! ### The phases after the exchange -/

/-- The outcome code of a `DecodeError` names it (42_host_sequence.md R190). -/
theorem decodeErrorOf_errorCode (e : DecodeError) : decodeErrorOf (errorCode (.decode e)) = some e := by
  cases e <;> rfl

/-- From what a read of `STATUS` gives back the host takes `ERR` (42_host_sequence.md R190). -/
theorem errField_read (s : State) : errField (BitVec.ofNat 8 (Data.ofBits s.status).value) = s.err := by
  simp [Data.ofBits]

/-- `STATUS` can always be read (10_state.md R21). -/
theorem hostRead_status {σ : Type} (s : State) (k : Nat → State → Host.Outcome σ Fault Refusal) :
    hostRead .status s k = k (Data.ofBits s.status).value (s.giveBack (.reg .status (Data.ofBits s.status))) :=
  hostRead_eq (r := .status) nofun rfl

/-- The seconds of a calendar time that is held can be read (10_state.md R38) ... -/
theorem hostRead_epoch {σ : Type} {s : State} {e : Word} (h : s.epoch = some e)
    (k : Nat → State → Host.Outcome σ Fault Refusal) :
    hostRead .epoch s k = k e.toNat (s.giveBack (.reg .epoch (Data.ofBits e))) :=
  hostRead_eq (r := .epoch) nofun (by rw [State.regValue, h]; rfl)

/-- ... and so can its fraction. -/
theorem hostRead_subsec {σ : Type} {s : State} {q : Word} (h : s.subsec = some q)
    (k : Nat → State → Host.Outcome σ Fault Refusal) :
    hostRead .subsec s k = k q.toNat (s.giveBack (.reg .subsec (Data.ofBits q))) :=
  hostRead_eq (r := .subsec) nofun (by rw [State.regValue, h]; rfl)

/-- Validating, when DEC reports an error (42_host_sequence.md R190). -/
theorem validateStep_rejected {s : SyncState} {b : State} {e : DecodeError} (h : exec .dec s.block = .next b)
    (he : b.err = errorCode (.decode e)) :
    validateStep s =
      .next (({ s with block := b.giveBack (.reg .status (Data.ofBits b.status)) }).fail (.decode e)) := by
  rw [validateStep, perform_command, h]
  simp only [hostRead_status, errField_read, he, decodeErrorOf_errorCode]

/-- Validating, when DEC reports success (42_host_sequence.md R190, R191). -/
theorem validateStep_accepted {s : SyncState} {b : State} (h : exec .dec s.block = .next b) (he : b.err = 0#3) :
    validateStep s = sanityStep { s with block := b.giveBack (.reg .status (Data.ofBits b.status)) } := by
  rw [validateStep, perform_command, h]
  simp only [hostRead_status, errField_read, he, show decodeErrorOf 0#3 = none from rfl]

/-- Settles O55: DEC reports the error that `decodeResponse` answers, and the host takes it from `STATUS`. -/
theorem rejectedResponseEndsTheCall : Obligations.RejectedResponseEndsTheCall := by
  intro s e hp he
  obtain ⟨b, hb⟩ := exec_completes .dec s.block
  obtain ⟨herr, -, -⟩ := exec_dec_of_error hb he
  exact ⟨_, (syncStep_validating hp).trans (validateStep_rejected hb herr), rfl, rfl⟩

section Record

variable {σ : Type} {s : State} {p : NtpPacket} (h : s.record = RecordRegs.ofPacket p)
  (k : Nat → State → Host.Outcome σ Fault Refusal)

include h

/-! A record that is held can be read (10_state.md R38). -/

theorem hostRead_recXmtSec : hostRead .recXmtSec s k =
    k p.transmit.seconds.toNat (s.giveBack (.reg .recXmtSec (Data.ofBits p.transmit.seconds))) :=
  hostRead_eq (r := .recXmtSec) nofun (by rw [State.regValue, h]; rfl)

theorem hostRead_recXmtFrac : hostRead .recXmtFrac s k =
    k p.transmit.fraction.toNat (s.giveBack (.reg .recXmtFrac (Data.ofBits p.transmit.fraction))) :=
  hostRead_eq (r := .recXmtFrac) nofun (by rw [State.regValue, h]; rfl)

theorem hostRead_recStratum : hostRead .recStratum s k =
    k p.stratum.toNat (s.giveBack (.reg .recStratum (Data.ofBits p.stratum))) :=
  hostRead_eq (r := .recStratum) nofun (by rw [State.regValue, h]; rfl)

theorem hostRead_recPrecision : hostRead .recPrecision s k =
    k p.precision.toNat (s.giveBack (.reg .recPrecision (Data.ofBits p.precision))) :=
  hostRead_eq (r := .recPrecision) nofun (by rw [State.regValue, h]; rfl)

end Record

/-- Check A, the first of the sanity checks (42_host_sequence.md R191): whether the transmit pair is zero. -/
abbrev NtpPacket.zeroTransmit (p : NtpPacket) : Prop := p.transmit.seconds.toNat = 0 ∧ p.transmit.fraction.toNat = 0

section Sanity

variable {s : SyncState} {p : NtpPacket} (h : s.block.record = RecordRegs.ofPacket p)

include h

/-- Check A comes first (42_host_sequence.md R191). -/
theorem sanityStep_zeroTransmit (hz : p.zeroTransmit) :
    ∃ t, sanityStep s = .next t ∧ t.phase = .doneFailure .zeroTransmit := by
  simp only [sanityStep, hostRead_recXmtSec (p := p), hostRead_recXmtFrac (p := p), giveBack_record, h, if_pos hz]
  exact ⟨_, rfl, rfl⟩

/-- Check B fails from stratum 16 on (42_host_sequence.md R191). -/
theorem sanityStep_stratumOutOfRange (hz : ¬ p.zeroTransmit) (h16 : 16 ≤ p.stratum.toNat) :
    ∃ t, sanityStep s = .next t ∧ t.phase = .doneFailure .stratumOutOfRange := by
  have hrange : ¬ (1 ≤ p.stratum.toNat ∧ p.stratum.toNat ≤ 15) := by omega
  simp only [sanityStep, hostRead_recXmtSec (p := p), hostRead_recXmtFrac (p := p), hostRead_recStratum (p := p),
    giveBack_record, h, if_neg hz, if_neg hrange]
  exact ⟨_, rfl, rfl⟩

/-- A record that passes both checks goes to Converting as it is (42_host_sequence.md R191). -/
theorem sanityStep_passes (hz : ¬ p.zeroTransmit) (h1 : 1 ≤ p.stratum.toNat) (h15 : p.stratum.toNat ≤ 15) :
    ∃ t, sanityStep s = .next t ∧ t.phase = .converting ∧ t.block.record = RecordRegs.ofPacket p := by
  have hrange : 1 ≤ p.stratum.toNat ∧ p.stratum.toNat ≤ 15 := ⟨h1, h15⟩
  simp only [sanityStep, hostRead_recXmtSec (p := p), hostRead_recXmtFrac (p := p), hostRead_recStratum (p := p),
    giveBack_record, h, if_neg hz, if_pos hrange]
  exact ⟨_, rfl, rfl, h⟩

end Sanity

/-- The transmit pair of the record as the wire shows it (30_encoding.md R90). -/
theorem zeroTransmit_recordOf (buf : Nat → Byte) :
    (recordOf buf).zeroTransmit ↔ bigEndian buf 40 = 0 ∧ bigEndian buf 44 = 0 := by
  rw [bigEndian_eq_memRead4, bigEndian_eq_memRead4]
  exact Iff.rfl

/-- Validating a response that DEC accepts is checking its record (42_host_sequence.md R190, R191). -/
theorem syncStep_accepted {s : SyncState} (hp : s.phase = .validating) (hacc : DecAccepts s.block) :
    ∃ b, b.record = RecordRegs.ofPacket (recordOf s.block.rxByte) ∧ syncStep s = sanityStep { s with block := b } := by
  obtain ⟨hlen, hmode, hstratum⟩ := hacc
  obtain ⟨b, hb⟩ := exec_completes .dec s.block
  obtain ⟨herr, -, hrec⟩ := exec_dec_of_ok hb (decodeResponse_ok hlen hmode hstratum)
  exact ⟨b.giveBack (.reg .status (Data.ofBits b.status)), hrec,
    (syncStep_validating hp).trans (validateStep_accepted hb herr)⟩

/-- DEC has already rejected stratum 0 (42_host_sequence.md R191). -/
theorem one_le_stratum_of_accepted {b : State} (h : DecAccepts b) : 1 ≤ (b.rxByte 1).toNat :=
  Nat.one_le_iff_ne_zero.mpr fun h0 => h.2.2 (BitVec.eq_of_toNat_eq h0)

/-- A response that DEC accepts and that passes both checks goes to Converting with its record (42_host_sequence.md R191). -/
theorem syncStep_passes {s : SyncState} (hp : s.phase = .validating) (hacc : DecAccepts s.block)
    (hz : ¬ (bigEndian s.block.rxByte 40 = 0 ∧ bigEndian s.block.rxByte 44 = 0)) (h15 : (s.block.rxByte 1).toNat ≤ 15) :
    ∃ t, syncStep s = .next t ∧ t.phase = .converting ∧
      t.block.record = RecordRegs.ofPacket (recordOf s.block.rxByte) := by
  obtain ⟨b, hrec, hstep⟩ := syncStep_accepted hp hacc
  rw [hstep]
  exact sanityStep_passes hrec (mt (zeroTransmit_recordOf _).mp hz) (one_le_stratum_of_accepted hacc) h15

/-- Settles O57: one clause for each end of the sanity checks. -/
theorem sanityChecksInOrder : Obligations.SanityChecksInOrder := by
  intro s hp hacc
  obtain ⟨b, hrec, hstep⟩ := syncStep_accepted hp hacc
  refine ⟨fun hz => ?_, fun hz h16 => ?_, fun hz h15 => ?_⟩
  · exact hstep ▸ sanityStep_zeroTransmit hrec ((zeroTransmit_recordOf _).mpr hz)
  · exact hstep ▸ sanityStep_stratumOutOfRange hrec (mt (zeroTransmit_recordOf _).mp hz) h16
  · exact (syncStep_passes hp hacc hz h15).imp fun _ ⟨ht, hphase, _⟩ => ⟨ht, hphase⟩

/-- `MOVXMT` puts the record's transmit timestamp in CONV's operands and leaves the record (30_encoding.md R119). -/
theorem moveTransmit_of_record {s : State} {p : NtpPacket} (h : s.record = RecordRegs.ofPacket p) :
    ∃ b, moveTransmit s = .next b ∧ b.convSec = p.transmit.seconds ∧ b.convFrac = p.transmit.fraction ∧
      b.record = RecordRegs.ofPacket p := by
  simp only [moveTransmit, hostRead_recXmtSec (p := p), hostRead_recXmtFrac (p := p), giveBack_record, h, issueAll,
    perform_wrTxn (r := .convSec) rfl p.transmit.seconds.isLt, perform_wrTxn (r := .convFrac) rfl p.transmit.fraction.isLt]
  exact ⟨_, rfl, BitVec.ofNat_toNat .., BitVec.ofNat_toNat .., h⟩

/-- The host's result is the converted timestamp with the record's stratum and precision (42_host_sequence.md R194). -/
theorem resultStep_of_results {s : SyncState} {p : NtpPacket} {e q : Word} (he : s.block.epoch = some e)
    (hq : s.block.subsec = some q) (h : s.block.record = RecordRegs.ofPacket p) :
    ∃ t, resultStep s = .next t ∧ t.phase = .doneSuccess
      { epochSeconds := e.toNat, subSecondFraction := q.toNat, stratum := p.stratum.toNat
        precision := p.precision.toNat } := by
  simp only [resultStep, hostRead_epoch he, hostRead_subsec (q := q), hostRead_recStratum (p := p),
    hostRead_recPrecision (p := p), giveBack_subsec, giveBack_record, hq, h]
  exact ⟨_, rfl, rfl⟩

/-- Converting a record from 1970 on ends the call with its time, stratum and precision (42_host_sequence.md R193, R194). -/
theorem convertStep_of_record {s : SyncState} {p : NtpPacket} (h : s.block.record = RecordRegs.ofPacket p)
    (hs : 2208988800 ≤ p.transmit.seconds.toNat) :
    ∃ t, convertStep s = .next t ∧ t.phase = .doneSuccess
      { epochSeconds := p.transmit.seconds.toNat - 2208988800, subSecondFraction := p.transmit.fraction.toNat
        stratum := p.stratum.toNat, precision := p.precision.toNat } := by
  obtain ⟨b, hb, hsec, hfrac, hrec⟩ := moveTransmit_of_record h
  obtain ⟨c, hc⟩ := exec_completes .conv b
  obtain ⟨herr, -, hepoch, hsubsec⟩ := exec_conv_of_after hc (hsec ▸ hs)
  have hrec' : c.record = RecordRegs.ofPacket p := ((exec_other_results hc).2.1 nofun).trans hrec
  have hok : (0#3 : BitVec 3) ≠ errorCode (.conversion .beforeEpoch) := by decide
  rw [convertStep, hb]
  simp only [perform_command, hc, hostRead_status, errField_read, herr, if_neg hok]
  rw [← sub_epochOffset_toNat hs, ← hsec, ← hfrac]
  exact resultStep_of_results hepoch hsubsec hrec'

/-- Settles O56: the record passes both checks and is then converted; neither step sends. -/
theorem acceptedResponseSucceeds : Obligations.AcceptedResponseSucceeds := by
  intro s hp hacc h15 hsec
  obtain ⟨t, ht, htp, hrec⟩ := syncStep_passes hp hacc (by omega) h15
  rw [bigEndian_eq_memRead4] at hsec
  obtain ⟨u, hu, hup⟩ := convertStep_of_record hrec hsec
  obtain ⟨hsent, -⟩ := structuralFailuresAreNotRetried s t (.inl hp) ht
  rw [← syncStep_converting htp] at hu
  obtain ⟨hsent', -⟩ := structuralFailuresAreNotRetried t u (.inr htp) hu
  refine ⟨u, by simp only [syncRun, ht, hu], ?_, hsent'.trans hsent⟩
  rw [hup, bigEndian_eq_memRead4, bigEndian_eq_memRead4]
  rfl

/-! ### A transport that never responds -/

/-- After some steps the call has ended in a timeout, with `k` datagrams sent and as many endpoints acquired and released
(42_host_sequence.md R195). -/
def TimesOut (k : Nat) (s : SyncState) : Prop :=
  ∃ n t, syncRun n s = .next t ∧ t.phase = .doneFailure .timeout ∧ t.sent.length = k ∧ t.acquired = k ∧
    t.released = k ∧ t.endpoint = none

/-- A call times out if it does so one step later. -/
theorem TimesOut.of_step {k : Nat} {s t : SyncState} (h : syncStep s = .next t) (ht : TimesOut k t) : TimesOut k s := by
  obtain ⟨n, u, hu, hend⟩ := ht
  exact ⟨n + 1, u, by rw [syncRun, h]; exact hu, hend⟩

/-- A call between two attempts, each retry used so far standing for one endpoint and one datagram, with nothing to come that
is a response or a failure of the lower layer. -/
structure BetweenAttempts (s : SyncState) : Prop where
  phase : s.phase = .awaitingResponse
  endpoint : s.endpoint = none
  acquired : s.acquired = s.retries
  released : s.released = s.retries
  sent : s.sent.length = s.retries
  routes : false ∉ s.routes
  sends : false ∉ s.sends
  net : ∀ e ∈ s.net, e.isResponse s.cfg = false ∧ e ≠ .ioFailure

/-- Where no missing path is listed, an endpoint is acquired (42_host_sequence.md R181). -/
theorem syncStep_opens {s : SyncState} (hp : s.phase = .awaitingResponse) (he : s.endpoint = none)
    (hroutes : s.routes.head? ≠ some false) : syncStep s = .next ({ s with routes := s.routes.tail }).acquire := by
  rcases openStep_cases s with ⟨rest, hfail, -⟩ | ⟨-, hopen⟩
  · exact absurd (by rw [hfail]; rfl) hroutes
  · rw [syncStep_unopened hp he, hopen]

/-- A wait without a response ends with the deadline, by induction on what it brings. -/
theorem timesOut_of_wait {k localPort : Nat} {s : SyncState} (hp : s.phase = .awaitingResponse)
    (he : s.endpoint = some (.waiting localPort)) (hnet : ∀ e ∈ s.net, e.isResponse s.cfg = false ∧ e ≠ .ioFailure)
    (hdeadline : ∀ rest, (∀ e ∈ rest, e ∈ s.net) → TimesOut k (({ s with net := rest }).transient .timeout)) :
    TimesOut k s := by
  induction hs : s.net generalizing s with
  | nil => exact .of_step ((syncStep_waiting hp he).trans (waitStep_nil hs)) (hdeadline s.net fun _ => id)
  | cons e rest ih =>
    rw [hs] at hnet hdeadline
    obtain ⟨⟨hresponse, hio⟩, hrest⟩ := List.forall_mem_cons.mp hnet
    cases e with
    | datagram address port payload =>
      refine .of_step ((syncStep_waiting hp he).trans (waitStep_foreign hs hresponse)) (ih hp he hrest ?_ rfl)
      exact fun later hlater => hdeadline later fun e he => List.mem_cons_of_mem _ (hlater e he)
    | deadline =>
      exact .of_step ((syncStep_waiting hp he).trans (waitStep_deadline hs))
        (hdeadline rest fun _ => List.mem_cons_of_mem _)
    | ioFailure => exact absurd rfl hio

/-- One attempt: an endpoint is acquired, a datagram is sent, and the wait passes its deadline.  While retries are left it is
enough that the call times out from there; with none left it has ended. -/
theorem timesOut_of_attempt {k : Nat} {s : SyncState} (h : BetweenAttempts s)
    (hretry : s.retries < s.cfg.maxRetries →
      ∀ t, t.cfg = s.cfg → t.retries = s.retries + 1 → BetweenAttempts t → TimesOut k t)
    (hend : s.cfg.maxRetries ≤ s.retries → k = s.retries + 1) : TimesOut k s := by
  obtain ⟨hp, he, hacq, hrel, hsent, hroutes, hsends, hnet⟩ := h
  refine .of_step (syncStep_opens hp he fun hr => hroutes (List.mem_of_head? hr)) ?_
  refine .of_step (syncStep_sends hp rfl fun hs => hsends (List.mem_of_head? hs)) ?_
  refine timesOut_of_wait hp rfl hnet fun rest hrest => ?_
  rw [transient_eq rfl]
  have hacq' := congrArg (· + 1) hacq
  have hrel' := congrArg (· + 1) hrel
  have hsent' := congrArg (· + 1) hsent
  rcases Nat.lt_or_ge s.retries s.cfg.maxRetries with hr | hr
  · have hused : (if s.retries < s.cfg.maxRetries then s.retries + 1 else s.retries) = s.retries + 1 := if_pos hr
    exact hretry hr _ rfl hused
      ⟨(if_pos hr).trans hp, rfl, hacq'.trans hused.symm, hrel'.trans hused.symm, hsent'.trans hused.symm,
        fun h => hroutes (List.mem_of_mem_tail h), fun h => hsends (List.mem_of_mem_tail h),
        fun e he => hnet e (hrest e he)⟩
  · obtain rfl := hend hr
    exact ⟨0, _, rfl, if_neg (Nat.not_lt.mpr hr), hsent', hacq', hrel', rfl⟩

/-- With `d` retries left, by induction on `d`. -/
theorem timesOut_of_betweenAttempts {d : Nat} {s : SyncState} (h : BetweenAttempts s)
    (hd : s.retries + d = s.cfg.maxRetries) : TimesOut (s.cfg.maxRetries + 1) s := by
  induction d generalizing s with
  | zero => exact timesOut_of_attempt h (fun hlt => absurd hlt (by omega)) (fun _ => by omega)
  | succ d ih => exact timesOut_of_attempt h (fun _ t hcfg hr ht => hcfg ▸ ih ht (by rw [hcfg]; omega)) (by omega)

/-- Settles O53: the request is read, and then there is one attempt for each retry and one before them. -/
theorem neverRespondingTransportTimesOut : Obligations.NeverRespondingTransportTimesOut := by
  intro cfg b routes sends net hroutes hsends hnet
  obtain ⟨b', -, -, hrequest⟩ := requestStep_eq { SyncState.start cfg b routes sends net with phase := .requesting }
  refine TimesOut.of_step rfl (.of_step ((syncStep_requesting rfl).trans hrequest) ?_)
  exact timesOut_of_betweenAttempts ⟨rfl, rfl, rfl, rfl, rfl, hroutes, hsends, hnet⟩ (Nat.zero_add _)

end Sys2Proof.Machine

/-!
PROOFS. The family 60_exceptions.md: what raising an error does, that a command which ends with one changes nothing else, and that
every command completes.
-/

namespace Sys2Proof.Machine

/-! ### Raising an error -/

/-- No error touches bits 7:6 of `STATUS` (10_state.md R29). -/
theorem raise_unusedField (e : BlockError) (s : State) : unusedField (raise e s).status = unusedField s.status := by
  cases e with
  | decode d => simp [raise_decode]
  | conversion c => simp [raise_conversion]

/-- Settles O32: the flags each error writes, the registers it empties, and the frame that `raise` itself is. -/
theorem raisedErrorEffect : Obligations.RaisedErrorEffect := by
  refine ⟨fun d s => ?_, fun c s => ?_⟩
  · obtain ⟨herr, hrv, htv, hcv⟩ := raise_decode_flags d s
    exact ⟨herr, hrv, fun r hr => regValue_noValue rfl hr, htv, hcv, raise_unusedField _ s, rfl⟩
  · obtain ⟨herr, hcv, htv, hrv⟩ := raise_conversion_flags c s
    exact ⟨herr, hcv, htv, hrv, raise_unusedField _ s, rfl⟩

/-! ### Errors are precise -/

/-- A DEC that does not report success has raised one of the three errors (40_packet_codec.md R144). -/
theorem exec_dec_failed {s t : State} (h : exec .dec s = .next t) (herr : t.err ≠ 0#3) :
    ∃ d, t = raise (.decode d) s.afterDecRead := by
  cases hres : decodeResponse s.rxlen s.rxByte with
  | error d => exact ⟨d, next_unique (exec_dec_error hres) h⟩
  | ok p => exact absurd (exec_dec_of_ok h hres).1 herr

/-- A CONV that does not report success has raised `BeforeEpoch` (41_time_converter.md R165). -/
theorem exec_conv_failed {s t : State} (h : exec .conv s = .next t) (herr : t.err ≠ 0#3) :
    t = raise (.conversion .beforeEpoch) s := by
  rcases Nat.lt_or_ge s.convSec.toNat 2208988800 with hs | hs
  · exact next_unique (exec_conv_error (toCalendarTime_before hs)) h
  · exact absurd (exec_conv_of_after h hs).1 herr

/-- The three errors of DEC leave the same block but for the code in `STATUS.ERR`, whether or not `RXBUF` was read: a draw is
no part of the block (60_exceptions.md R216). -/
theorem sameBlock_raise_decode (d d' : DecodeError) (s : State) :
    SameBlock (raise (.decode d) s.afterDecRead)
      ((raise (.decode d') s).withStatus (setErr (errorCode (.decode d)) (setRvalid false s.status))) := by
  rw [afterDecRead_eq, raise_decode, raise_decode]
  exact ⟨rfl, rfl, rfl, rfl, rfl, rfl, rfl, rfl, rfl, rfl, rfl, rfl, rfl⟩

/-- Settles O33: ENC reports success, and what DEC and CONV leave when they do not is a raised error. -/
theorem errorsArePrecise : Obligations.ErrorsArePrecise := by
  intro i s t h herr
  cases i with
  | enc => exact absurd (exec_enc_flags h).1 herr
  | dec =>
    obtain ⟨d, rfl⟩ := exec_dec_failed h herr
    refine .inl ⟨rfl, ?_⟩
    rw [(raise_decode_flags d s.afterDecRead).1]
    exact sameBlock_raise_decode d .shortBuffer s
  | conv =>
    obtain rfl := exec_conv_failed h herr
    exact .inr ⟨rfl, rfl, rfl, rfl, rfl, rfl, rfl, rfl, rfl, rfl, rfl, rfl, rfl, rfl⟩

/-! ### Every command completes -/

/-- Settles O34: no end of a command, an error included, is without a next state. -/
theorem everyCommandCompletes : Obligations.EveryCommandCompletes := exec_completes

end Sys2Proof.Machine

/-!
PROOFS. What an event does as the next step: a reset, the `CMD` write of a table word, and none at all; and the layout of the
flags byte.
-/

namespace Sys2Proof.Machine

/-! ### Reset and idling -/

/-- A reset leaves the reset values, whatever was held before (70_reset_and_hazards.md R250). -/
theorem sameBlock_applyReset (s : State) : SameBlock (applyReset s) State.reset :=
  ⟨rfl, rfl, rfl, rfl, rfl, rfl, rfl, rfl, rfl, rfl, rfl, rfl, rfl⟩

/-- Settles O2: the step is `applyReset`, which keeps the events still waiting. -/
theorem resetEventRestoresEverything : Obligations.ResetEventRestoresEverything := by
  intro s rest hinbox
  have hstep : step s = .next (applyReset (s.withInbox rest)) := step_cons hinbox
  exact ⟨_, hstep, sameBlock_applyReset _, applyReset_inbox _⟩

/-- Settles O7: a step with no event waiting is the identity. -/
theorem idleStepChangesNothing : Obligations.IdleStepChangesNothing := fun _ => step_nil

/-! ### Table words -/

/-- A decoding with a command behind it is the decoding of a command's code. -/
theorem instr_eq_some_iff {d : Decoded} {i : Instr} : d.instr = some i ↔ d = .command i := by
  cases d <;> simp [Decoded.instr]

/-- A table word is a command exactly when its low bits are the code of that command (30_encoding.md R110, R113). -/
theorem decodeTableWord_eq_some_iff {nbits w : Nat} {i : Instr} :
    decodeTableWord nbits w = some i ↔ w % 2 ^ nbits = (encode i).toNat := by
  rw [decodeTableWord]
  split
  · next hlt =>
    rw [instr_eq_some_iff]
    refine ⟨fun h => ?_, fun h => ?_⟩
    · rw [← eq_encode_of_decode h, BitVec.toNat_ofNat, Nat.mod_eq_of_lt hlt]
    · rw [h, BitVec.ofNat_toNat, BitVec.setWidth_eq, decode_encode]
  · next hge =>
    have hcode := (encode i).isLt
    simp only [reduceCtorEq, false_iff]
    omega

/-- The transaction that carries a command's table word is the write of that command's code. -/
theorem tableTxn_eq_commandTxn {nbits w : Nat} {i : Instr} (h : decodeTableWord nbits w = some i) :
    tableTxn nbits w = commandTxn i := by
  rw [tableTxn, decodeTableWord_eq_some_iff.mp h, commandTxn]

/-- The step after a table word is placed performs its `CMD` write, with the waiting events as they were. -/
theorem step_withFetchWord (s : State) (nbits w : Nat) :
    step (s.withFetchWord nbits w) = perform (tableTxn nbits w) s := by
  have hinbox : (s.withFetchWord nbits w).inbox = .host (tableTxn nbits w) :: s.inbox := rfl
  rw [step_cons hinbox, handle, State.withFetchWord, withInbox_withInbox, withInbox_self]

/-- Settles O6: the step performs the write of the command's code. -/
theorem fetchWordRunsTableCommand : Obligations.FetchWordRunsTableCommand := by
  intro s nbits w i h
  rw [step_withFetchWord, tableTxn_eq_commandTxn h, perform_command]

/-! ### The flags byte -/

/-- `LI` reads back from the flags byte (30_encoding.md R91). -/
theorem flagsLI_makeFlags (li : BitVec 2) (vn mode : BitVec 3) : flagsLI (makeFlags li vn mode) = li := by
  rw [flagsLI, makeFlags, BitVec.extractLsb'_append_eq_of_le (by decide)]
  exact BitVec.extractLsb'_append_eq_left

/-- `VN` reads back from the flags byte (30_encoding.md R91). -/
theorem flagsVN_makeFlags (li : BitVec 2) (vn mode : BitVec 3) : flagsVN (makeFlags li vn mode) = vn := by
  rw [flagsVN, makeFlags, BitVec.extractLsb'_append_eq_of_le (by decide)]
  exact BitVec.extractLsb'_append_eq_right

/-- Settles O9: the value of the byte, and the three fields read back. -/
theorem flagsByteLayout : Obligations.FlagsByteLayout := fun li vn mode =>
  ⟨makeFlags_toNat li vn mode, flagsLI_makeFlags li vn mode, flagsVN_makeFlags li vn mode, flagsMode_makeFlags li vn mode⟩

end Sys2Proof.Machine
